-- ==== Sys2Proof/Word.lean ====
section
/-! DEFINITION. The word types of the block (00_scope.md R7, R11: everything is unsigned). -/

namespace Sys2Proof

/-- A byte: a general register, a timer, a memory cell. -/
abbrev Byte := BitVec 8

/-- A 16-bit word: `I`, `PC`, a stack slot, an instruction word. -/
abbrev Word := BitVec 16

/-- A 4-bit field: a register number, a sprite height, bits the decoder ignores. -/
abbrev Nibble := BitVec 4

/-- The 12-bit address field `NNN`. -/
abbrev Addr := BitVec 12

end Sys2Proof
end

