-- ==== Sys2Proof/Config.lean ====
section
/-! DEFINITION. What the implementation fixes (00_scope.md R7) and the inputs it leaves free. -/

namespace Sys2Proof.Config

/-- `MEM_SIZE`: addresses 0x000 to 0xFFF. -/
def memSize : Nat := 4096

/-- `STACK_DEPTH`. -/
def stackDepth : Nat := 16

/-- `GRID_W`. -/
def gridW : Nat := 64

/-- `GRID_H`. -/
def gridH : Nat := 32

/-- `FONT_BASE`. -/
def fontBase : Nat := 0x000

/-- `GLYPH_BYTES`. -/
def glyphBytes : Nat := 5

/-- `PROG_BASE`: the reset vector and the first fetchable address. -/
def progBase : Nat := 0x200

/-- `PROG_MAX`: the longest program blob. -/
def progMax : Nat := 3584

/-- The last address an instruction can be fetched from (41_cycle.md R170). -/
def lastFetch : Nat := 0xFFE

/-- Free input: the key levels the host drives with step request number `n` (10_state.md R39). No body:
nothing can be proved of a value of it. Log entry 6. -/
opaque keysAt : Nat → BitVec 16

/-- Free input: the random byte the host drives with step request number `n` (10_state.md R46, `RND` of
00_scope.md R7). No body. Log entry 6. -/
opaque rndAt : Nat → Byte

/-- Free input: whether the host pulses `clear_ack` between step request `n` and the one before it
(60_exceptions.md R342: early, late or never). No body. Log entry 6. -/
opaque ackAt : Nat → Bool

end Sys2Proof.Config
end

