-- ==== Sys2Proof/Syntax.lean ====
section
/-! DEFINITION. The instruction set: one constructor per row of spec/opcode_table.json, in the table's order. -/

namespace Sys2Proof

/-- The 34 instructions of 30_encoding.md R115. Operands have exactly the width of their field (R111), so every
term is a legal instruction. A field `ign` holds bits the decoder ignores (R114, R117): no effect depends on them,
but a fault records the whole opcode in `STATUS.FOP` (10_state.md R44), so they are kept and `encode` gives the
fetched word back. -/
inductive Instr where
  /-- `00E0` CLS (42_control.md R200). -/
  | cls (ign : Nibble)
  /-- `00EE` RET (R201). -/
  | ret (ign : Nibble)
  /-- `1NNN` JP addr (R202). -/
  | jp (nnn : Addr)
  /-- `2NNN` CALL addr (R203). -/
  | call (nnn : Addr)
  /-- `3XNN` SE Vx, byte (R204). -/
  | seByte (x : Nibble) (nn : Byte)
  /-- `4XNN` SNE Vx, byte (R205). -/
  | sneByte (x : Nibble) (nn : Byte)
  /-- `5XY0` SE Vx, Vy (R206). -/
  | seReg (x y ign : Nibble)
  /-- `6XNN` LD Vx, byte (43_alu.md R231). -/
  | ldByte (x : Nibble) (nn : Byte)
  /-- `7XNN` ADD Vx, byte (R232). -/
  | addByte (x : Nibble) (nn : Byte)
  /-- `8XY0` LD Vx, Vy (R233). -/
  | ldReg (x y : Nibble)
  /-- `8XY1` OR Vx, Vy (R234). -/
  | orReg (x y : Nibble)
  /-- `8XY2` AND Vx, Vy (R235). -/
  | andReg (x y : Nibble)
  /-- `8XY3` XOR Vx, Vy (R236). -/
  | xorReg (x y : Nibble)
  /-- `8XY4` ADD Vx, Vy (R237). -/
  | addReg (x y : Nibble)
  /-- `8XY5` SUB Vx, Vy (R238). -/
  | subReg (x y : Nibble)
  /-- `8XY6` SHR Vx (R239); the `Y` nibble is ignored. -/
  | shr (x ign : Nibble)
  /-- `8XY7` SUBN Vx, Vy (R240). -/
  | subnReg (x y : Nibble)
  /-- `8XYE` SHL Vx (R241); the `Y` nibble is ignored. -/
  | shl (x ign : Nibble)
  /-- `9XY0` SNE Vx, Vy (42_control.md R207). -/
  | sneReg (x y ign : Nibble)
  /-- `ANNN` LD I, addr (44_memory_ops.md R261). -/
  | ldI (nnn : Addr)
  /-- `BNNN` JP V0, addr (42_control.md R208). -/
  | jpV0 (nnn : Addr)
  /-- `CXNN` RND Vx, byte (43_alu.md R242). -/
  | rnd (x : Nibble) (nn : Byte)
  /-- `DXYN` DRW Vx, Vy, nibble (45_draw.md R280). -/
  | drw (x y n : Nibble)
  /-- `EX9E` SKP Vx (46_timers_keys.md R300). -/
  | skp (x : Nibble)
  /-- `EXA1` SKNP Vx (R301). -/
  | sknp (x : Nibble)
  /-- `FX07` LD Vx, DT (R302). -/
  | ldVxDt (x : Nibble)
  /-- `FX0A` LD Vx, K (R303). -/
  | ldVxK (x : Nibble)
  /-- `FX15` LD DT, Vx (R304). -/
  | ldDtVx (x : Nibble)
  /-- `FX18` LD ST, Vx (R305). -/
  | ldStVx (x : Nibble)
  /-- `FX1E` ADD I, Vx (44_memory_ops.md R262). -/
  | addI (x : Nibble)
  /-- `FX29` LD F, Vx (R263). -/
  | ldF (x : Nibble)
  /-- `FX33` LD B, Vx (R264). -/
  | ldB (x : Nibble)
  /-- `FX55` LD [I], Vx (R265). -/
  | stRegs (x : Nibble)
  /-- `FX65` LD Vx, [I] (R266). -/
  | ldRegs (x : Nibble)
deriving DecidableEq, Repr

end Sys2Proof
end

