-- ==== Sys2Proof/WellFormed.lean ====
section
/-! DEFINITION. The checks an input passes before the machine acts on it: a word is a named instruction, a program
blob fits, a coordinate is on the grid. Terms of `Instr` need no check: their field types are exact. -/

namespace Sys2Proof

/-- The mask and match of an opcode-map row: the row takes `op` when `op & mask = match`. -/
structure Row where
  mask : Word
  value : Word
deriving DecidableEq, Repr

/-- Whether the row takes this word. -/
def Row.takes (r : Row) (op : Word) : Bool := op &&& r.mask == r.value

/-- The opcode map of 30_encoding.md R115, in its order. -/
def opcodeMap : List Row :=
  [⟨0xF0FF#16, 0x00E0#16⟩, ⟨0xF0FF#16, 0x00EE#16⟩, ⟨0xF000#16, 0x1000#16⟩, ⟨0xF000#16, 0x2000#16⟩, ⟨0xF000#16, 0x3000#16⟩,
   ⟨0xF000#16, 0x4000#16⟩, ⟨0xF000#16, 0x5000#16⟩, ⟨0xF000#16, 0x6000#16⟩, ⟨0xF000#16, 0x7000#16⟩] ++
  [⟨0xF00F#16, 0x8000#16⟩, ⟨0xF00F#16, 0x8001#16⟩, ⟨0xF00F#16, 0x8002#16⟩, ⟨0xF00F#16, 0x8003#16⟩, ⟨0xF00F#16, 0x8004#16⟩,
   ⟨0xF00F#16, 0x8005#16⟩, ⟨0xF00F#16, 0x8006#16⟩, ⟨0xF00F#16, 0x8007#16⟩, ⟨0xF00F#16, 0x800E#16⟩] ++
  [⟨0xF000#16, 0x9000#16⟩, ⟨0xF000#16, 0xA000#16⟩, ⟨0xF000#16, 0xB000#16⟩, ⟨0xF000#16, 0xC000#16⟩, ⟨0xF000#16, 0xD000#16⟩,
   ⟨0xF0FF#16, 0xE09E#16⟩, ⟨0xF0FF#16, 0xE0A1#16⟩] ++
  [⟨0xF0FF#16, 0xF007#16⟩, ⟨0xF0FF#16, 0xF00A#16⟩, ⟨0xF0FF#16, 0xF015#16⟩, ⟨0xF0FF#16, 0xF018#16⟩, ⟨0xF0FF#16, 0xF01E#16⟩,
   ⟨0xF0FF#16, 0xF029#16⟩, ⟨0xF0FF#16, 0xF033#16⟩, ⟨0xF0FF#16, 0xF055#16⟩, ⟨0xF0FF#16, 0xF065#16⟩]

/-- A well-formed instruction word: some row of the opcode map takes it. The others are the unknown opcodes of
30_encoding.md R116. -/
def wellFormedWord (op : Word) : Bool := opcodeMap.any (·.takes op)

/-- A program blob that fits in memory from 0x200 (70_reset_and_hazards.md R363). -/
def wellFormedBlob (prog : List Byte) : Bool := prog.length ≤ Config.progMax

/-- A coordinate on the 64 × 32 grid: the precondition of every pixel-index operation (40_pixel_index.md R140). -/
def wellFormedCell (x y : Nat) : Bool := x < Config.gridW && y < Config.gridH

/-- The row of the opcode map an instruction stands for (spec/opcode_table.json). -/
def Instr.row : Instr → Row
  | .cls _ => ⟨0xF0FF#16, 0x00E0#16⟩
  | .ret _ => ⟨0xF0FF#16, 0x00EE#16⟩
  | .jp _ => ⟨0xF000#16, 0x1000#16⟩
  | .call _ => ⟨0xF000#16, 0x2000#16⟩
  | .seByte _ _ => ⟨0xF000#16, 0x3000#16⟩
  | .sneByte _ _ => ⟨0xF000#16, 0x4000#16⟩
  | .seReg _ _ _ => ⟨0xF000#16, 0x5000#16⟩
  | .ldByte _ _ => ⟨0xF000#16, 0x6000#16⟩
  | .addByte _ _ => ⟨0xF000#16, 0x7000#16⟩
  | .ldReg _ _ => ⟨0xF00F#16, 0x8000#16⟩
  | .orReg _ _ => ⟨0xF00F#16, 0x8001#16⟩
  | .andReg _ _ => ⟨0xF00F#16, 0x8002#16⟩
  | .xorReg _ _ => ⟨0xF00F#16, 0x8003#16⟩
  | .addReg _ _ => ⟨0xF00F#16, 0x8004#16⟩
  | .subReg _ _ => ⟨0xF00F#16, 0x8005#16⟩
  | .shr _ _ => ⟨0xF00F#16, 0x8006#16⟩
  | .subnReg _ _ => ⟨0xF00F#16, 0x8007#16⟩
  | .shl _ _ => ⟨0xF00F#16, 0x800E#16⟩
  | .sneReg _ _ _ => ⟨0xF000#16, 0x9000#16⟩
  | .ldI _ => ⟨0xF000#16, 0xA000#16⟩
  | .jpV0 _ => ⟨0xF000#16, 0xB000#16⟩
  | .rnd _ _ => ⟨0xF000#16, 0xC000#16⟩
  | .drw _ _ _ => ⟨0xF000#16, 0xD000#16⟩
  | .skp _ => ⟨0xF0FF#16, 0xE09E#16⟩
  | .sknp _ => ⟨0xF0FF#16, 0xE0A1#16⟩
  | .ldVxDt _ => ⟨0xF0FF#16, 0xF007#16⟩
  | .ldVxK _ => ⟨0xF0FF#16, 0xF00A#16⟩
  | .ldDtVx _ => ⟨0xF0FF#16, 0xF015#16⟩
  | .ldStVx _ => ⟨0xF0FF#16, 0xF018#16⟩
  | .addI _ => ⟨0xF0FF#16, 0xF01E#16⟩
  | .ldF _ => ⟨0xF0FF#16, 0xF029#16⟩
  | .ldB _ => ⟨0xF0FF#16, 0xF033#16⟩
  | .stRegs _ => ⟨0xF0FF#16, 0xF055#16⟩
  | .ldRegs _ => ⟨0xF0FF#16, 0xF065#16⟩

end Sys2Proof
end

