-- ==== Sys2Proof/Decode.lean ====
section
/-! DEFINITION. Decoding and encoding of instruction words (30_encoding.md). -/

namespace Sys2Proof

/-! ### Fields of an instruction word (30_encoding.md R111) -/

/-- `op[15:12]`. -/
def family (op : Word) : Nibble := op.extractLsb' 12 4
/-- `op[11:8]`. -/
def fieldX (op : Word) : Nibble := op.extractLsb' 8 4
/-- `op[7:4]`. -/
def fieldY (op : Word) : Nibble := op.extractLsb' 4 4
/-- `op[3:0]`. -/
def fieldN (op : Word) : Nibble := op.extractLsb' 0 4
/-- `op[7:0]`. -/
def fieldNN (op : Word) : Byte := op.extractLsb' 0 8
/-- `op[11:0]`. -/
def fieldNNN (op : Word) : Addr := op.extractLsb' 0 12

/-- Why bytes are no instruction. -/
inductive DecodeError where
  /-- No row of the opcode map takes the word (30_encoding.md R116). Not a fault: 41_cycle.md R177 says what the
  block does with it. -/
  | unknownOpcode (op : Word)
  /-- Fewer than two bytes. The fetch always has two. -/
  | truncated
deriving DecidableEq, Repr

/-- Family 0: the sub-selector is the low byte (30_encoding.md R114). -/
def decodeFamily0 (op : Word) : Except DecodeError Instr :=
  if fieldNN op = 0xE0#8 then .ok (.cls (fieldX op))
  else if fieldNN op = 0xEE#8 then .ok (.ret (fieldX op))
  else .error (.unknownOpcode op)

/-- Family 8: the sub-selector is the low nibble. -/
def decodeFamily8 (op : Word) : Except DecodeError Instr :=
  if fieldN op = 0x0#4 then .ok (.ldReg (fieldX op) (fieldY op))
  else if fieldN op = 0x1#4 then .ok (.orReg (fieldX op) (fieldY op))
  else if fieldN op = 0x2#4 then .ok (.andReg (fieldX op) (fieldY op))
  else if fieldN op = 0x3#4 then .ok (.xorReg (fieldX op) (fieldY op))
  else if fieldN op = 0x4#4 then .ok (.addReg (fieldX op) (fieldY op))
  else if fieldN op = 0x5#4 then .ok (.subReg (fieldX op) (fieldY op))
  else if fieldN op = 0x6#4 then .ok (.shr (fieldX op) (fieldY op))
  else if fieldN op = 0x7#4 then .ok (.subnReg (fieldX op) (fieldY op))
  else if fieldN op = 0xE#4 then .ok (.shl (fieldX op) (fieldY op))
  else .error (.unknownOpcode op)

/-- Family E: the sub-selector is the low byte. -/
def decodeFamilyE (op : Word) : Except DecodeError Instr :=
  if fieldNN op = 0x9E#8 then .ok (.skp (fieldX op))
  else if fieldNN op = 0xA1#8 then .ok (.sknp (fieldX op))
  else .error (.unknownOpcode op)

/-- Family F: the sub-selector is the low byte. -/
def decodeFamilyF (op : Word) : Except DecodeError Instr :=
  if fieldNN op = 0x07#8 then .ok (.ldVxDt (fieldX op))
  else if fieldNN op = 0x0A#8 then .ok (.ldVxK (fieldX op))
  else if fieldNN op = 0x15#8 then .ok (.ldDtVx (fieldX op))
  else if fieldNN op = 0x18#8 then .ok (.ldStVx (fieldX op))
  else if fieldNN op = 0x1E#8 then .ok (.addI (fieldX op))
  else if fieldNN op = 0x29#8 then .ok (.ldF (fieldX op))
  else if fieldNN op = 0x33#8 then .ok (.ldB (fieldX op))
  else if fieldNN op = 0x55#8 then .ok (.stRegs (fieldX op))
  else if fieldNN op = 0x65#8 then .ok (.ldRegs (fieldX op))
  else .error (.unknownOpcode op)

/-- Decode a word by its family, and a sub-selector in families 0, 8, E and F (30_encoding.md R114 to R118). -/
def decodeWord (op : Word) : Except DecodeError Instr :=
  if family op = 0x0#4 then decodeFamily0 op
  else if family op = 0x1#4 then .ok (.jp (fieldNNN op))
  else if family op = 0x2#4 then .ok (.call (fieldNNN op))
  else if family op = 0x3#4 then .ok (.seByte (fieldX op) (fieldNN op))
  else if family op = 0x4#4 then .ok (.sneByte (fieldX op) (fieldNN op))
  else if family op = 0x5#4 then .ok (.seReg (fieldX op) (fieldY op) (fieldN op))
  else if family op = 0x6#4 then .ok (.ldByte (fieldX op) (fieldNN op))
  else if family op = 0x7#4 then .ok (.addByte (fieldX op) (fieldNN op))
  else if family op = 0x8#4 then decodeFamily8 op
  else if family op = 0x9#4 then .ok (.sneReg (fieldX op) (fieldY op) (fieldN op))
  else if family op = 0xA#4 then .ok (.ldI (fieldNNN op))
  else if family op = 0xB#4 then .ok (.jpV0 (fieldNNN op))
  else if family op = 0xC#4 then .ok (.rnd (fieldX op) (fieldNN op))
  else if family op = 0xD#4 then .ok (.drw (fieldX op) (fieldY op) (fieldN op))
  else if family op = 0xE#4 then decodeFamilyE op
  else decodeFamilyF op

/-- The word two consecutive bytes make: the byte at the lower address is bits 15..8 (20_memory.md R80). -/
def composeWord (hi lo : Byte) : Word := hi ++ lo

/-- The byte of a word that lies at the lower address. -/
def highByte (op : Word) : Byte := op.extractLsb' 8 8
/-- The byte of a word that lies at the higher address. -/
def lowByte (op : Word) : Byte := op.extractLsb' 0 8

/-- Decode the instruction at the head of a byte stream, and the bytes after it. Total on any bytes. -/
def decodeBytes : List Byte → Except DecodeError (Instr × List Byte)
  | hi :: lo :: rest => (decodeWord (composeWord hi lo)).map (·, rest)
  | _ => .error .truncated

/-! ### Encoding (the patterns of 30_encoding.md R115) -/

/-- A word `FXYN` from its four nibbles. -/
def wordXYN (f x y n : Nibble) : Word := f ++ x ++ (y ++ n)
/-- A word `FXNN`. -/
def wordXNN (f x : Nibble) (nn : Byte) : Word := f ++ x ++ nn
/-- A word `FNNN`. -/
def wordNNN (f : Nibble) (nnn : Addr) : Word := f ++ nnn

/-- The word of an instruction. -/
def encode : Instr → Word
  | .cls ign => wordXNN 0x0#4 ign 0xE0#8
  | .ret ign => wordXNN 0x0#4 ign 0xEE#8
  | .jp nnn => wordNNN 0x1#4 nnn
  | .call nnn => wordNNN 0x2#4 nnn
  | .seByte x nn => wordXNN 0x3#4 x nn
  | .sneByte x nn => wordXNN 0x4#4 x nn
  | .seReg x y ign => wordXYN 0x5#4 x y ign
  | .ldByte x nn => wordXNN 0x6#4 x nn
  | .addByte x nn => wordXNN 0x7#4 x nn
  | .ldReg x y => wordXYN 0x8#4 x y 0x0#4
  | .orReg x y => wordXYN 0x8#4 x y 0x1#4
  | .andReg x y => wordXYN 0x8#4 x y 0x2#4
  | .xorReg x y => wordXYN 0x8#4 x y 0x3#4
  | .addReg x y => wordXYN 0x8#4 x y 0x4#4
  | .subReg x y => wordXYN 0x8#4 x y 0x5#4
  | .shr x ign => wordXYN 0x8#4 x ign 0x6#4
  | .subnReg x y => wordXYN 0x8#4 x y 0x7#4
  | .shl x ign => wordXYN 0x8#4 x ign 0xE#4
  | .sneReg x y ign => wordXYN 0x9#4 x y ign
  | .ldI nnn => wordNNN 0xA#4 nnn
  | .jpV0 nnn => wordNNN 0xB#4 nnn
  | .rnd x nn => wordXNN 0xC#4 x nn
  | .drw x y n => wordXYN 0xD#4 x y n
  | .skp x => wordXNN 0xE#4 x 0x9E#8
  | .sknp x => wordXNN 0xE#4 x 0xA1#8
  | .ldVxDt x => wordXNN 0xF#4 x 0x07#8
  | .ldVxK x => wordXNN 0xF#4 x 0x0A#8
  | .ldDtVx x => wordXNN 0xF#4 x 0x15#8
  | .ldStVx x => wordXNN 0xF#4 x 0x18#8
  | .addI x => wordXNN 0xF#4 x 0x1E#8
  | .ldF x => wordXNN 0xF#4 x 0x29#8
  | .ldB x => wordXNN 0xF#4 x 0x33#8
  | .stRegs x => wordXNN 0xF#4 x 0x55#8
  | .ldRegs x => wordXNN 0xF#4 x 0x65#8

/-- The instruction word whose low `nbits` bits are those of `w` and whose other bits are 0. -/
def tableWord (nbits w : Nat) : Word := BitVec.ofNat 16 (w % 2 ^ nbits)

/-- The instruction the decoder reads from the word with bits `w`, stored as the hardware stores it, high byte at
the lower address. -/
def decodeTableWord (nbits w : Nat) : Option Instr :=
  match decodeBytes [highByte (tableWord nbits w), lowByte (tableWord nbits w)] with
  | .ok (i, _) => some i
  | .error _ => none

end Sys2Proof
end

