-- ==== Sys2Proof/Machine/State.lean ====
section
/-! DEFINITION. The state of the block (10_state.md), plain data, and the state after reset (R48). -/

namespace Sys2Proof.Machine

/-- The fatal conditions of 60_exceptions.md R324. They are recorded in `STATUS`; they do not stop the model. -/
inductive Cause where
  | fetchRange
  | fetchMisaligned
  | stackOverflow
  | stackUnderflow
  | memRange
  | drawBounds
  | keyIndex
  | fontDigit
  | indexBounds
deriving DecidableEq, Repr

/-- `STATUS`, the fault status register (10_state.md R44). -/
structure Status where
  halted : Bool
  cause : BitVec 4
  fpc : Word
  fop : Word
  finfo : Word
deriving DecidableEq, Repr

/-- No fault recorded (10_state.md R48). -/
def Status.clear : Status := ⟨false, 0, 0, 0, 0⟩

/-- The outputs valid for one step (10_state.md R41, R45): here, of the last step request. -/
structure Outputs where
  tone : Bool
  diagValid : Bool
  diagCode : BitVec 4
  diagOp : Word
deriving DecidableEq, Repr

/-- No tone and no diagnostic (41_cycle.md R182: 0 when no diagnostic). -/
def Outputs.quiet : Outputs := ⟨false, false, 0, 0⟩

/-- A cell `(x, y)` of the 64 × 32 grid. -/
structure Coord where
  x : Fin 64
  y : Fin 32
deriving DecidableEq, Repr

/-- The pixel index (10_state.md R42). `cell` holds `CELL[x][y]` for the active cells only, under the key
`32 x + y`, keys strictly rising: a cell that is not listed is `INACTIVE`. `list` holds `LIST[0]` .. `LIST[LEN-1]`;
`LEN` is its length, and the slots above, which R49 calls unobservable, are not held (log entry 5). -/
structure PixelIndex where
  cell : List (Nat × Nat)
  list : List Coord
deriving DecidableEq, Repr

/-- The index with no active cell. -/
def PixelIndex.empty : PixelIndex := ⟨[], []⟩

/-- What the host does around one step request: whether it pulses `clear_ack` before it, and the inputs it drives
with it (60_exceptions.md R345). -/
structure HostTurn where
  ack : Bool
  keys : BitVec 16
  rnd : Byte
deriving DecidableEq, Repr

/-- The state of the block. `schedule` and `turn` are the model's own (log entry 6). -/
structure State where
  /-- `V[0]` .. `V[15]` (R30). -/
  v : Vector Byte 16
  /-- The index register (R33). -/
  i : Word
  /-- The program counter (R34). -/
  pc : Word
  /-- `STACK[0]` .. `STACK[15]` (R35). -/
  stack : Vector Word 16
  /-- The stack depth, 0 to 16 (R35). -/
  sp : Fin 17
  /-- The delay timer (R36). -/
  dt : Byte
  /-- The sound timer (R37). -/
  st : Byte
  /-- Memory (R38): (address, byte) pairs in canonical form, `Mem.wf`. -/
  mem : List Host.Cell
  /-- The latch `KEY`: bit `k` is key `k` (R39). -/
  key : BitVec 16
  /-- The latch `RNDIN` (R46). -/
  rndIn : Byte
  /-- `clear_requested` (R40). -/
  clearRequested : Bool
  /-- The pixel index (R42). -/
  index : PixelIndex
  /-- `STATUS` (R44). -/
  status : Status
  /-- `load_error` (R47, 70_reset_and_hazards.md R363). -/
  loadError : Bool
  /-- `tone` and the diagnostic output (R41, R45). -/
  out : Outputs
  /-- MODEL'S OWN: the host's coming turns; where it is empty the host's inputs are free values. -/
  schedule : List HostTurn
  /-- MODEL'S OWN: the number of step requests so far; the argument of the free inputs. -/
  turn : Nat
deriving DecidableEq, Repr

/-- Reasons the model stops with a fault. There are none: every fatal condition of the spec is a state in which
`STATUS` records it (60_exceptions.md R325), and every address is checked before an access (20_memory.md R84).
Nothing raises a fault of this type, which is safe. -/
inductive Fault where
deriving DecidableEq, Repr

/-- Reasons the model has no meaning for an instruction. -/
inductive Refusal where
  /-- Raised by an arm of `exec` whose instruction has no meaning yet. Safe: no claim can be proved of its effect.
  No arm raises it. -/
  | notModelled (mnemonic : String)
deriving DecidableEq, Repr

/-- The state after a successful reset with the empty program blob (10_state.md R48; `L = 0` is allowed, R362):
nothing is listed in memory, so the font region holds the font. Log entries 1, 3, 4 and 6 name the values R48 does
not give: `MEM_INIT`, the stack slots, the latches, the schedule. -/
def State.reset : State where
  v := Vector.replicate 16 0
  i := 0
  pc := 0x200
  stack := Vector.replicate 16 0
  sp := 0
  dt := 0
  st := 0
  mem := []
  key := 0
  rndIn := 0
  clearRequested := false
  index := PixelIndex.empty
  status := Status.clear
  loadError := false
  out := Outputs.quiet
  schedule := []
  turn := 0

end Sys2Proof.Machine
end

