-- ==== Sys2Proof/Machine/Memory.lean ====
section
/-! DEFINITION. Sparse maps (sorted association lists), and memory over them (20_memory.md, 10_state.md R38). -/

namespace Sys2Proof.Machine

/-! ### Sparse maps: a key not listed has no value -/

/-- The value listed for key `a`. -/
def lookup {α : Type} : List (Nat × α) → Nat → Option α
  | [], _ => none
  | (k, w) :: rest, a => if a = k then some w else lookup rest a

/-- List value `w` for key `a`, in the place that keeps the keys rising. -/
def insertKey {α : Type} : List (Nat × α) → Nat → α → List (Nat × α)
  | [], a, w => [(a, w)]
  | (k, u) :: rest, a, w =>
    if a < k then (a, w) :: (k, u) :: rest
    else if a = k then (a, w) :: rest
    else (k, u) :: insertKey rest a w

/-- List nothing for key `a`. -/
def eraseKey {α : Type} (m : List (Nat × α)) (a : Nat) : List (Nat × α) :=
  m.filter (fun p => p.1 != a)

/-- The keys rise strictly: the canonical form of a sparse map. -/
abbrev Rising {α : Type} (m : List (Nat × α)) : Prop := m.Pairwise (fun p q => p.1 < q.1)

/-! ### Memory -/

/-- Memory as (address, byte) pairs. -/
abbrev Mem := List Host.Cell

/-- `FONT_DATA`: glyph `d` is bytes `5 d` to `5 d + 4` (10_state.md R38; the spec takes the bytes from general
knowledge: 93_implementation_defined.md G1, log entry 2). -/
def fontData : List Byte :=
  [0xF0, 0x90, 0x90, 0x90, 0xF0,  0x20, 0x60, 0x20, 0x20, 0x70,
   0xF0, 0x10, 0xF0, 0x80, 0xF0,  0xF0, 0x10, 0xF0, 0x10, 0xF0] ++
  [0x90, 0x90, 0xF0, 0x10, 0x10,  0xF0, 0x80, 0xF0, 0x10, 0xF0,
   0xF0, 0x80, 0xF0, 0x90, 0xF0,  0xF0, 0x10, 0x20, 0x40, 0x40] ++
  [0xF0, 0x90, 0xF0, 0x90, 0xF0,  0xF0, 0x90, 0xF0, 0x10, 0xF0,
   0xF0, 0x90, 0xF0, 0x90, 0x90,  0xE0, 0x90, 0xE0, 0x90, 0xE0] ++
  [0xF0, 0x80, 0x80, 0x80, 0xF0,  0xE0, 0x90, 0x90, 0x90, 0xE0,
   0xF0, 0x80, 0xF0, 0x80, 0xF0,  0xF0, 0x80, 0xF0, 0x80, 0x80]

/-- What an address that memory does not list reads as: the font from 0x000 to 0x04F, 0 above (DESIGN CHOICE for
`MEM_INIT` in `State.reset`, log entry 1; `State.hostReset` takes `MEM_INIT` as an argument). -/
def Mem.unlisted (a : Nat) : Byte := fontData.getD a 0

/-- The byte at address `a` (`MemRead(a, 1)` of 00_scope.md R12). Meanings check the range first (R84). -/
def Mem.read (m : Mem) (a : Nat) : Byte := (lookup m a).getD (Mem.unlisted a)

/-- Write one byte (`MemWrite(a, 1, b)`): writing what an unlisted address reads as removes the entry. -/
def Mem.write (m : Mem) (a : Nat) (b : Byte) : Mem :=
  if b = Mem.unlisted a then eraseKey m a else insertKey m a b

/-- The `n` bytes from address `a` up. -/
def Mem.readBytes (m : Mem) (a : Nat) : Nat → List Byte
  | 0 => []
  | n + 1 => m.read a :: Mem.readBytes m (a + 1) n

/-- Write the bytes one after the other from address `a` up (20_memory.md R83, R90). -/
def Mem.writeBytes (m : Mem) (a : Nat) : List Byte → Mem
  | [] => m
  | b :: bs => Mem.writeBytes (m.write a b) (a + 1) bs

/-- The canonical form: addresses of the address space, strictly rising, and no entry equal to what an unlisted
address reads as. -/
abbrev Mem.wf (m : Mem) : Prop :=
  Rising m ∧ ∀ p ∈ m, p.1 < Config.memSize ∧ p.2 ≠ Mem.unlisted p.1

/-- Whether the `n` bytes from address `a` up, computed exactly, lie in memory (20_memory.md R84): no byte, or
`a + (n - 1) ≤ 0xFFF`. -/
def Mem.inRange (a n : Nat) : Bool := n == 0 || a + n ≤ Config.memSize

/-- Memory after a reset's three writes in order (70_reset_and_hazards.md R360): `MEM_INIT` everywhere, then the
font (R361), then the program from 0x200 (R362). -/
def Mem.image (memInit : Nat → Byte) (prog : List Byte) : Mem :=
  ((Mem.writeBytes [] 0 ((List.range Config.memSize).map memInit)).writeBytes Config.fontBase fontData).writeBytes
    Config.progBase prog

end Sys2Proof.Machine
end

