-- ==== Sys2Proof/Machine/PixelIndex.lean ====
section
/-! DEFINITION. The sparse pixel index and its operations (40_pixel_index.md). -/

namespace Sys2Proof.Machine

/-- The key of a cell in `PixelIndex.cell`. -/
def Coord.index (c : Coord) : Nat := 32 * c.x.val + c.y.val

/-- The cell at `(x, y)`, if the coordinates are on the grid (R140: there is no wrapping). -/
def Coord.at? (x y : Nat) : Option Coord :=
  if h : x < 64 ∧ y < 32 then some ⟨⟨x, h.1⟩, ⟨y, h.2⟩⟩ else none

/-- `CELL[x][y]`: the list index of an active cell, `none` for `INACTIVE` (10_state.md R42). -/
def PixelIndex.cellAt (p : PixelIndex) (c : Coord) : Option Nat := lookup p.cell c.index

/-- `LEN`. -/
def PixelIndex.len (p : PixelIndex) : Nat := p.list.length

/-- `is_active` on a cell of the grid (R141). -/
def PixelIndex.active (p : PixelIndex) (c : Coord) : Bool := (p.cellAt c).isSome

/-- `activate` on a cell of the grid (R142). -/
def PixelIndex.activateCell (p : PixelIndex) (c : Coord) : PixelIndex :=
  match p.cellAt c with
  | some _ => p
  | none => { cell := insertKey p.cell c.index p.len, list := p.list ++ [c] }

/-- `deactivate` on a cell of the grid (R143): truncation for the last slot, swap-to-end removal for another. -/
def PixelIndex.deactivateCell (p : PixelIndex) (c : Coord) : PixelIndex :=
  match p.cellAt c with
  | none => p
  | some loc =>
    if loc + 1 = p.len then { cell := eraseKey p.cell c.index, list := p.list.dropLast }
    else match p.list.getLast? with
      | none => { p with cell := eraseKey p.cell c.index }
      | some m =>
        { cell := eraseKey (insertKey p.cell m.index loc) c.index, list := (p.list.set loc m).dropLast }

/-- `is_active(x, y)`; `none` is the fault INDEX_BOUNDS (R140). -/
def PixelIndex.isActive (p : PixelIndex) (x y : Nat) : Option Bool := (Coord.at? x y).map p.active

/-- `activate(x, y)`; `none` is the fault INDEX_BOUNDS (R140). -/
def PixelIndex.activate (p : PixelIndex) (x y : Nat) : Option PixelIndex := (Coord.at? x y).map p.activateCell

/-- `deactivate(x, y)`; `none` is the fault INDEX_BOUNDS (R140). -/
def PixelIndex.deactivate (p : PixelIndex) (x y : Nat) : Option PixelIndex := (Coord.at? x y).map p.deactivateCell

/-- `clear()` (R144): the list entries are popped from the last to the first, each resetting its cell. -/
def PixelIndex.clear (p : PixelIndex) : PixelIndex :=
  { cell := p.list.reverse.foldl (fun m c => eraseKey m c.index) p.cell, list := [] }

/-- `snapshot()` (R145). -/
def PixelIndex.snapshot (p : PixelIndex) : List Coord := p.list

/-- The cell table's canonical form: keys of the grid, strictly rising. -/
abbrev PixelIndex.wf (p : PixelIndex) : Prop := Rising p.cell ∧ ∀ e ∈ p.cell, e.1 < 2048

/-- The invariant `INV(CELL, LIST, LEN)` of 10_state.md R43. -/
def PixelIndex.Inv (p : PixelIndex) : Prop :=
  (∀ (c : Coord) (k : Nat), p.cellAt c = some k → k < p.len ∧ p.list[k]? = some c) ∧
  (∀ (k : Nat) (c : Coord), k < p.len → p.list[k]? = some c → p.cellAt c = some k)

end Sys2Proof.Machine
end

