-- ==== Sys2Proof/Machine/Ops.lean ====
section
/-! DEFINITION. The named operations over the state: registers, the program counter, the stack, timers, inputs,
outputs, the fetch, and taking a fault. -/

namespace Sys2Proof.Machine

/-! ### Registers -/

/-- `V[x]` (10_state.md R30). -/
def State.getV (s : State) (x : Nibble) : Byte := s.v[x.toNat]'x.isLt

/-- `V[x] <- b`. -/
def State.setV (s : State) (x : Nibble) (b : Byte) : State := { s with v := s.v.set x.toNat b x.isLt }

/-- `I <- w` (R33). -/
def State.setI (s : State) (w : Word) : State := { s with i := w }

/-- `PC <- w` (R34). -/
def State.setPc (s : State) (w : Word) : State := { s with pc := w }

/-- `DT <- b` (R36). -/
def State.setDt (s : State) (b : Byte) : State := { s with dt := b }

/-- `ST <- b` (R37). -/
def State.setSt (s : State) (b : Byte) : State := { s with st := b }

/-- Replace memory. -/
def State.setMem (s : State) (m : Mem) : State := { s with mem := m }

/-- Replace the pixel index. -/
def State.setIndex (s : State) (p : PixelIndex) : State := { s with index := p }

/-- `clear_requested <- b` (R40). -/
def State.setClear (s : State) (b : Bool) : State := { s with clearRequested := b }

/-- Read one byte of memory. -/
def State.readByte (s : State) (a : Nat) : Byte := Mem.read s.mem a

/-- Write `V[n]`, `V[n+1]`, ... from a list of bytes, in rising order (44_memory_ops.md R266). -/
def State.setVs (s : State) (n : Nat) : List Byte → State
  | [] => s
  | b :: bs => State.setVs (s.setV (BitVec.ofNat 4 n) b) (n + 1) bs

/-- `V[n]`, `V[n+1]`, ..., `k` registers in rising order (44_memory_ops.md R265). -/
def State.getVs (s : State) (n : Nat) : Nat → List Byte
  | 0 => []
  | k + 1 => s.getV (BitVec.ofNat 4 n) :: State.getVs s (n + 1) k

/-! ### The program counter (41_cycle.md R176) -/

/-- `PC' <- PC + 2`. -/
def State.advance (s : State) : State := s.setPc (s.pc + 2)

/-- `PC' <- PC + 4` if the condition holds, else `PC + 2`. -/
def State.skipIf (s : State) (c : Bool) : State := s.setPc (if c then s.pc + 4 else s.pc + 2)

/-! ### The stack (10_state.md R35) -/

/-- Push `w`; `none` when 16 addresses are on the stack. -/
def State.push (s : State) (w : Word) : Option State :=
  if h : s.sp.val < 16 then
    some { s with stack := s.stack.set s.sp.val w h, sp := ⟨s.sp.val + 1, by omega⟩ }
  else none

/-- Pop: the top address and the state without it; `none` when the stack is empty. The slot keeps its value. -/
def State.pop (s : State) : Option (Word × State) :=
  if h : 0 < s.sp.val then
    some (s.stack[s.sp.val - 1]'(by omega), { s with sp := ⟨s.sp.val - 1, by omega⟩ })
  else none

/-! ### Faults -/

/-- `STATUS.CAUSE` of each fault (60_exceptions.md R324). -/
def Cause.code : Cause → BitVec 4
  | .fetchRange => 1
  | .fetchMisaligned => 2
  | .stackOverflow => 3
  | .stackUnderflow => 4
  | .memRange => 5
  | .drawBounds => 6
  | .keyIndex => 7
  | .fontDigit => 8
  | .indexBounds => 9

/-- `raise F(info)` (60_exceptions.md R325, R327; 00_scope.md R14): `STATUS` records the fault, the step's outputs
are quiet, everything else is as it was. `op` is the fetched opcode, 0 for a fetch fault. A meaning raises on the
state it was given, so nothing of the instruction is committed (41_cycle.md R178). There is no return from a fault
(R329): only `State.hostReset` leaves it. -/
def State.raise (s : State) (c : Cause) (op info : Word) : State :=
  { s with status := ⟨true, c.code, s.pc, op, info⟩, out := Outputs.quiet }

/-! ### The parts of a step around execute (41_cycle.md) -/

/-- No tone and no diagnostic, as at the start of a step and for a request to a halted block (R173, R179). -/
def State.quiet (s : State) : State := { s with out := Outputs.quiet }

/-- `KEY <- keys`, `RNDIN <- rnd` (R174). -/
def State.latch (s : State) (keys : BitVec 16) (rnd : Byte) : State := { s with key := keys, rndIn := rnd }

/-- The fetch (R170, R171, R172): the fault it raises, or the opcode. -/
def State.fetch (s : State) : Except Cause Word :=
  if s.pc.toNat < Config.progBase ∨ Config.lastFetch < s.pc.toNat then .error .fetchRange
  else if s.pc[0] then .error .fetchMisaligned
  else .ok (composeWord (s.readByte s.pc.toNat) (s.readByte (s.pc.toNat + 1)))

/-- A timer one step later (R180). -/
def countDown (t : Byte) : Byte := if t = 0 then 0 else t - 1

/-- The timer step (R180, R181): the tone is raised when the sound timer is at 1 before it counts. -/
def State.timerStep (s : State) : State :=
  { s with dt := countDown s.dt, st := countDown s.st, out := { s.out with tone := s.st == 1 } }

/-- The execute phase of an unknown opcode (R177): a diagnostic, and `PC + 2`. -/
def State.unknownOpcode (s : State) (op : Word) : State :=
  { s with out := { s.out with diagValid := true, diagCode := 1, diagOp := op } }.advance

/-- Store an instruction word where the next fetch reads it, high byte at the lower address (20_memory.md R80). -/
def State.placeWord (s : State) (op : Word) : State :=
  if s.pc.toNat + 1 < Config.memSize then
    s.setMem (Mem.writeBytes s.mem s.pc.toNat [highByte op, lowByte op])
  else s

/-! ### The host's turn -/

/-- What the host does around the coming step request: its schedule, or free values (log entry 6). -/
def State.nextTurn (s : State) : HostTurn :=
  match s.schedule with
  | t :: _ => t
  | [] => ⟨Config.ackAt s.turn, Config.keysAt s.turn, Config.rndAt s.turn⟩

/-- The host's turn is taken. -/
def State.takeTurn (s : State) : State := { s with schedule := s.schedule.tail, turn := s.turn + 1 }

/-- `clear_ack` if `b` (60_exceptions.md R342): `clear_requested <- 0`, and nothing else. -/
def State.ackIf (s : State) (b : Bool) : State := { s with clearRequested := s.clearRequested && !b }

end Sys2Proof.Machine
end

