-- ==== Sys2Proof/Machine/Flags.lean ====
section
/-! DEFINITION. The flag computations (43_alu.md): each takes the operands read at the start of the step. -/

namespace Sys2Proof.Machine

/-- A flag as the byte written to `VF`. -/
def flagByte (b : Bool) : Byte := if b then 1 else 0

/-- Carry out of bit 7 of a sum (R237). -/
def carry (a b : Byte) : Bool := 255 < a.toNat + b.toNat

/-- NOT borrow of `a - b` (R238, R240). -/
def notBorrow (a b : Byte) : Bool := b.toNat ≤ a.toNat

/-- The bit a right shift drops (R239). -/
def shiftedOutRight (a : Byte) : Bool := a[0]

/-- The bit a left shift drops (R241). -/
def shiftedOutLeft (a : Byte) : Bool := a[7]

/-- `V'[F] <- flag` (10_state.md R31). -/
def State.setFlag (s : State) (b : Bool) : State := s.setV 0xF (flagByte b)

/-- Write the result to `V[x]` and then, last, the flag to `VF` (R230): when `x = F` the flag stays. -/
def State.setResultFlag (s : State) (x : Nibble) (r : Byte) (flag : Bool) : State := (s.setV x r).setFlag flag

end Sys2Proof.Machine
end

