-- ==== Sys2Proof/Machine/Operands.lean ====
section
/-! DEFINITION. The operand forms: the `I`-relative block (44_memory_ops.md R260, 20_memory.md R84) and a register
that names a key or a digit (46_timers_keys.md R300, 44_memory_ops.md R263). -/

namespace Sys2Proof.Machine

/-- `FINFO` of MEM_RANGE: `max(I, 0x1000)` (20_memory.md R84). -/
def State.memRangeInfo (s : State) : Word := if s.i.toNat < 0x1000 then 0x1000 else s.i

/-- The `n` bytes from `I` up; `none` if any address of the range lies above 0xFFF. -/
def State.loadBlock (s : State) (n : Nat) : Option (List Byte) :=
  if Mem.inRange s.i.toNat n then some (Mem.readBytes s.mem s.i.toNat n) else none

/-- Write the bytes from `I` up; `none`, with nothing written, if any address of the range lies above 0xFFF. -/
def State.storeBlock (s : State) (bytes : List Byte) : Option State :=
  if Mem.inRange s.i.toNat bytes.length then some (s.setMem (Mem.writeBytes s.mem s.i.toNat bytes)) else none

/-- A register value as a key or digit number; `none` above 0xF. -/
def hexDigit (b : Byte) : Option Nibble := if b.toNat ≤ 0xF then some (b.setWidth 4) else none

/-- `KEY[k]` (10_state.md R39). -/
def State.keyDown (s : State) (k : Nibble) : Bool := s.key.getLsbD k.toNat

/-- `min { k | KEY[k] = 1 }`, if any key is down (46_timers_keys.md R303). -/
def State.lowestKey (s : State) : Option Nat := (List.range 16).find? (fun k => s.key.getLsbD k)

end Sys2Proof.Machine
end

