-- ==== Sys2Proof/Machine/Control.lean ====
section
/-! DEFINITION. Control transfer, skips and display clear (42_control.md). -/

namespace Sys2Proof.Machine

/-- R200. -/
def execCls (_ign : Nibble) (s : State) : Host.Outcome State Fault Refusal :=
  .next ((s.setIndex s.index.clear).setClear true).advance

/-- R201: the popped address is the call's own, so `+ 2` is the instruction after it. -/
def execRet (ign : Nibble) (s : State) : Host.Outcome State Fault Refusal :=
  match s.pop with
  | none => .next (s.raise .stackUnderflow (encode (.ret ign)) 0)
  | some (w, t) => .next (t.setPc (w + 2))

/-- R202. -/
def execJp (nnn : Addr) (s : State) : Host.Outcome State Fault Refusal :=
  .next (s.setPc (nnn.setWidth 16))

/-- R203: the address pushed is that of the call itself. -/
def execCall (nnn : Addr) (s : State) : Host.Outcome State Fault Refusal :=
  match s.push s.pc with
  | none => .next (s.raise .stackOverflow (encode (.call nnn)) (nnn.setWidth 16))
  | some t => .next (t.setPc (nnn.setWidth 16))

/-- R204. -/
def execSeByte (x : Nibble) (nn : Byte) (s : State) : Host.Outcome State Fault Refusal :=
  .next (s.skipIf (s.getV x == nn))

/-- R205. -/
def execSneByte (x : Nibble) (nn : Byte) (s : State) : Host.Outcome State Fault Refusal :=
  .next (s.skipIf (s.getV x != nn))

/-- R206. -/
def execSeReg (x y _ign : Nibble) (s : State) : Host.Outcome State Fault Refusal :=
  .next (s.skipIf (s.getV x == s.getV y))

/-- R207. -/
def execSneReg (x y _ign : Nibble) (s : State) : Host.Outcome State Fault Refusal :=
  .next (s.skipIf (s.getV x != s.getV y))

/-- R208: the register is always `V0`, and the sum does not wrap to 12 bits. -/
def execJpV0 (nnn : Addr) (s : State) : Host.Outcome State Fault Refusal :=
  .next (s.setPc (nnn.setWidth 16 + (s.getV 0).setWidth 16))

end Sys2Proof.Machine
end

