-- ==== Sys2Proof/Machine/Draw.lean ====
section
/-! DEFINITION. Draw (45_draw.md). -/

namespace Sys2Proof.Machine

/-- The columns of the 1 bits of a sprite row, left to right: bit `7 - c` is column `c` (R281). -/
def rowColumns (row : Byte) : List Nat := (List.range 8).filter (fun c => row.getLsbD (7 - c))

/-- The 1 bits of a sprite as (row, column), in row-major order (R283), its first row being row `r`. -/
def spriteBits (r : Nat) : List Byte → List (Nat × Nat)
  | [] => []
  | row :: rows => (rowColumns row).map (fun c => (r, c)) ++ spriteBits (r + 1) rows

/-- Whether the 1 bit at (row, column) of a sprite at `(x0, y0)` falls outside the grid (R284). -/
def offGrid (x0 y0 : Nat) (b : Nat × Nat) : Bool := 63 < x0 + b.2 || 31 < y0 + b.1

/-- Toggle the cells in turn (R282): the index afterwards and whether any was turned off, or the first coordinate
that is off the grid (INDEX_BOUNDS, 40_pixel_index.md R140). -/
def drawCells : List (Nat × Nat) → PixelIndex → Bool → Except (Nat × Nat) (PixelIndex × Bool)
  | [], p, collision => .ok (p, collision)
  | (x, y) :: rest, p, collision =>
    match p.isActive x y with
    | none => .error (x, y)
    | some true =>
      match p.deactivate x y with
      | none => .error (x, y)
      | some q => drawCells rest q true
    | some false =>
      match p.activate x y with
      | none => .error (x, y)
      | some q => drawCells rest q collision

/-- `FINFO` of DRAW_BOUNDS: `(r << 8) | c` (R284). -/
def drawInfo (b : Nat × Nat) : Word := BitVec.ofNat 16 (b.1 <<< 8 ||| b.2)

/-- `FINFO` of INDEX_BOUNDS: `{x[7:0], y[7:0]}` (60_exceptions.md R324). -/
def indexInfo (c : Nat × Nat) : Word := BitVec.ofNat 8 c.1 ++ BitVec.ofNat 8 c.2

/-- R280, its pseudocode (log entry 14 on a corner sentence that conflicts with it). -/
def execDrw (x y n : Nibble) (s : State) : Host.Outcome State Fault Refusal :=
  match s.loadBlock n.toNat with
  | none => .next (s.raise .memRange (encode (.drw x y n)) s.memRangeInfo)
  | some rows =>
    match (spriteBits 0 rows).find? (offGrid (s.getV x).toNat (s.getV y).toNat) with
    | some b => .next (s.raise .drawBounds (encode (.drw x y n)) (drawInfo b))
    | none =>
      match drawCells ((spriteBits 0 rows).map (fun b => ((s.getV x).toNat + b.2, (s.getV y).toNat + b.1)))
          s.index false with
      | .error c => .next (s.raise .indexBounds (encode (.drw x y n)) (indexInfo c))
      | .ok (p, collision) => .next ((s.setIndex p).setFlag collision).advance

end Sys2Proof.Machine
end

