-- ==== Sys2Proof/Machine/MemoryOps.lean ====
section
/-! DEFINITION. Index register and memory instructions (44_memory_ops.md). -/

namespace Sys2Proof.Machine

/-- R261. -/
def execLdI (nnn : Addr) (s : State) : Host.Outcome State Fault Refusal :=
  .next (s.setI (nnn.setWidth 16)).advance

/-- R262: modulo 65536, no flag. -/
def execAddI (x : Nibble) (s : State) : Host.Outcome State Fault Refusal :=
  .next (s.setI (s.i + (s.getV x).setWidth 16)).advance

/-- R263. -/
def execLdF (x : Nibble) (s : State) : Host.Outcome State Fault Refusal :=
  match hexDigit (s.getV x) with
  | none => .next (s.raise .fontDigit (encode (.ldF x)) ((s.getV x).setWidth 16))
  | some d => .next (s.setI (BitVec.ofNat 16 (Config.fontBase + Config.glyphBytes * d.toNat))).advance

/-- The three decimal digits of a byte, hundreds first (R264). -/
def bcdDigits (b : Byte) : List Byte :=
  [BitVec.ofNat 8 (b.toNat / 100), BitVec.ofNat 8 (b.toNat / 10 % 10), BitVec.ofNat 8 (b.toNat % 10)]

/-- R264. -/
def execLdB (x : Nibble) (s : State) : Host.Outcome State Fault Refusal :=
  match s.storeBlock (bcdDigits (s.getV x)) with
  | none => .next (s.raise .memRange (encode (.ldB x)) s.memRangeInfo)
  | some t => .next t.advance

/-- R265: `V0` through `VX` inclusive. -/
def execStRegs (x : Nibble) (s : State) : Host.Outcome State Fault Refusal :=
  match s.storeBlock (s.getVs 0 (x.toNat + 1)) with
  | none => .next (s.raise .memRange (encode (.stRegs x)) s.memRangeInfo)
  | some t => .next t.advance

/-- R266: `V0` through `VX` inclusive. -/
def execLdRegs (x : Nibble) (s : State) : Host.Outcome State Fault Refusal :=
  match s.loadBlock (x.toNat + 1) with
  | none => .next (s.raise .memRange (encode (.ldRegs x)) s.memRangeInfo)
  | some bytes => .next (s.setVs 0 bytes).advance

end Sys2Proof.Machine
end

