-- ==== Sys2Proof/Machine/TimersKeys.lean ====
section
/-! DEFINITION. Keys and timers (46_timers_keys.md). -/

namespace Sys2Proof.Machine

/-- R300. -/
def execSkp (x : Nibble) (s : State) : Host.Outcome State Fault Refusal :=
  match hexDigit (s.getV x) with
  | none => .next (s.raise .keyIndex (encode (.skp x)) ((s.getV x).setWidth 16))
  | some k => .next (s.skipIf (s.keyDown k))

/-- R301. -/
def execSknp (x : Nibble) (s : State) : Host.Outcome State Fault Refusal :=
  match hexDigit (s.getV x) with
  | none => .next (s.raise .keyIndex (encode (.sknp x)) ((s.getV x).setWidth 16))
  | some k => .next (s.skipIf (!s.keyDown k))

/-- R302: the timer's value before this step's decrement. -/
def execLdVxDt (x : Nibble) (s : State) : Host.Outcome State Fault Refusal :=
  .next (s.setV x s.dt).advance

/-- R303: with no key down `PC` and `V[X]` stay, so that the next step runs the same instruction. -/
def execLdVxK (x : Nibble) (s : State) : Host.Outcome State Fault Refusal :=
  .next ((s.setV x ((s.lowestKey.map (BitVec.ofNat 8)).getD (s.getV x))).setPc
    (if s.lowestKey.isSome then s.pc + 2 else s.pc))

/-- R304: the timer step of the same step counts the new value down. -/
def execLdDtVx (x : Nibble) (s : State) : Host.Outcome State Fault Refusal :=
  .next (s.setDt (s.getV x)).advance

/-- R305: as for `DT`. -/
def execLdStVx (x : Nibble) (s : State) : Host.Outcome State Fault Refusal :=
  .next (s.setSt (s.getV x)).advance

end Sys2Proof.Machine
end

