-- ==== Sys2Proof/Machine/Cycle.lean ====
section
/-! DEFINITION. One step request with its inputs (41_cycle.md R179), over `exec`. -/

namespace Sys2Proof.Machine

/-- The end of a step of `s` after the execute phase: the timer step, unless the execute phase raised a fault (R178);
then the latches hold again what they held in `s`, since a faulting step leaves every element but `STATUS` as it was
before the step (00_scope.md R14, 60_exceptions.md R323; log entry 9). The execute phase runs only in a block that is
not halted, so a halted result is a fault of this step. -/
def finishStep (s : State) (o : Host.Outcome State Fault Refusal) : Host.Outcome State Fault Refusal :=
  match o with
  | .next t => .next (if t.status.halted then t.latch s.key s.rndIn else t.timerStep)
  | .fault r => .fault r
  | .refused r => .refused r

/-- Decode and execute a fetched opcode (R175, R177). -/
def State.execWord (s : State) (op : Word) : Host.Outcome State Fault Refusal :=
  match decodeWord op with
  | .ok i => exec i s
  | .error _ => .next (s.unknownOpcode op)

/-- `step(keys, rnd)` (R179). -/
def State.request (keys : BitVec 16) (rnd : Byte) (s : State) : Host.Outcome State Fault Refusal :=
  if s.status.halted then .next s.quiet
  else
    match (s.quiet.latch keys rnd).fetch with
    | .error c => .next (s.raise c 0 s.pc)
    | .ok op => finishStep s ((s.quiet.latch keys rnd).execWord op)

/-- The host's next turn: its `clear_ack`, if it gives one, and then its step request. -/
def State.hostStep (s : State) : Host.Outcome State Fault Refusal :=
  (s.takeTurn.ackIf s.nextTurn.ack).request s.nextTurn.keys s.nextTurn.rnd

end Sys2Proof.Machine
end

