-- ==== Sys2Proof/Machine/HostPort.lean ====
section
/-! DEFINITION. The host's interactions with the block between steps (60_exceptions.md R345) and reset
(70_reset_and_hazards.md). -/

namespace Sys2Proof.Machine

/-- `clear_ack` (R342). -/
def State.ackClear (s : State) : State := s.ackIf true

/-- Reset with a program blob (R360 to R363). `memInit` is `MEM_INIT`, a free input of reset. A blob that does not
fit loads nothing and leaves the block halted with `load_error`; the rest of the state is then unspecified, and is
taken from `other`, which nothing constrains (log entry 7). What the host has scheduled is not the block's state,
and stays. -/
def State.hostReset (s : State) (memInit : Nat → Byte) (prog : List Byte) (other : State) : State :=
  if wellFormedBlob prog then
    { State.reset with mem := Mem.image memInit prog, schedule := s.schedule, turn := s.turn }
  else
    { other with
      loadError := true
      status := { other.status with halted := true, cause := 0 }
      schedule := s.schedule
      turn := s.turn }

/-- `snap_len` (40_pixel_index.md R145). -/
def State.snapLen (s : State) : Nat := s.index.len

/-- `snap_entry(k)`, for `k < LEN` (40_pixel_index.md R145). -/
def State.snapEntry (s : State) (k : Nat) : Option Coord := s.index.snapshot[k]?

/-- The host's moves that act on the block (60_exceptions.md R345). -/
inductive HostMove where
  | step (keys : BitVec 16) (rnd : Byte)
  | clearAck
  | reset (memInit : Nat → Byte) (prog : List Byte) (other : State)

/-- The block after a move of the host. -/
def State.hostMove (s : State) (m : HostMove) : Host.Outcome State Fault Refusal :=
  match m with
  | .step keys rnd => s.request keys rnd
  | .clearAck => .next s.ackClear
  | .reset memInit prog other => .next (s.hostReset memInit prog other)

end Sys2Proof.Machine
end

