-- ==== Sys2Proof/Machine/Step.lean ====
section
/-! DEFINITION. The step of the machine: the host's next turn. -/

namespace Sys2Proof.Machine

/-- One step request of the host, with the inputs of its next turn (log entry 6). -/
def step (s : State) : Host.Outcome State Fault Refusal := s.hostStep

/-- `s` with the word whose low `nbits` bits are those of `w` stored at `PC`, where `step` fetches. -/
def State.withFetchWord (s : State) (nbits w : Nat) : State := s.placeWord (tableWord nbits w)

end Sys2Proof.Machine
end

