-- ==== Sys2Proof/Safety.lean ====
section
/-! DEFINITION. The terms claims are stated in: encodings, frames, faults, and the invariants of the block. -/

namespace Sys2Proof.Safety
open Sys2Proof.Machine

/-! ### Encodings and fetch -/

/-- Every word with these bits under the mask decodes to that instruction of its fields (30_encoding.md R115). -/
def Encoded (mask value : Word) (i : Word → Instr) : Prop :=
  ∀ op : Word, op &&& mask = value → decodeWord op = .ok (i op)

/-- The fetch at `PC` raises no fault (41_cycle.md R170, R171). -/
def Fetchable (s : State) : Prop := 0x200 ≤ s.pc.toNat ∧ s.pc.toNat ≤ 0xFFE ∧ s.pc.toNat % 2 = 0

/-- The opcode in memory at `PC`, high byte first (41_cycle.md R172). -/
def opcodeAt (s : State) : Word := composeWord (s.readByte s.pc.toNat) (s.readByte (s.pc.toNat + 1))

/-- The state a request's instruction executes in: outputs quiet, inputs latched (41_cycle.md R174, R179). -/
def latched (keys : BitVec 16) (rnd : Byte) (s : State) : State :=
  { s with out := Outputs.quiet, key := keys, rndIn := rnd }

/-! ### Frames -/

/-- Every byte of memory reads as before. -/
def SameBytes (s t : State) : Prop := ∀ a, t.readByte a = s.readByte a

/-- Every byte of memory but the `n` bytes from `a` reads as before. -/
def SameBytesOutside (a n : Nat) (s t : State) : Prop :=
  ∀ b, b < a ∨ a + n ≤ b → t.readByte b = s.readByte b

/-- Every general register but those of `ws` reads as before. -/
def SameRegs (ws : List Nibble) (s t : State) : Prop := ∀ z, z ∉ ws → t.getV z = s.getV z

/-- Nothing has changed but `PC` and the general registers of `ws`. -/
def OnlyRegs (ws : List Nibble) (s t : State) : Prop :=
  t = { s with v := t.v, pc := t.pc } ∧ SameRegs ws s t ∧ SameBytes s t

/-- Nothing has changed but what a fault records (60_exceptions.md R325, R327): `STATUS` with the cause, the
faulting `PC`, the opcode and the information; the outputs of the step are quiet. -/
def Faulted (cause : BitVec 4) (op info : Word) (s t : State) : Prop :=
  t = { s with status := ⟨true, cause, s.pc, op, info⟩, out := ⟨false, false, 0, 0⟩ }

/-! ### Sprites (45_draw.md R281) -/

/-- Bit `7 - c` of the byte at `I + r` is 1: the sprite has a pixel at row `r`, column `c`. -/
def SpritePixel (s : State) (r c : Nat) : Prop := (s.readByte (s.i.toNat + r)).getLsbD (7 - c) = true

/-- The cell is the target of a 1 bit of the sprite of `n` rows drawn at `(V[x], V[y])`. -/
def SpriteCovers (s : State) (x y n : Nibble) (d : Coord) : Prop :=
  ∃ r c, r < n.toNat ∧ c < 8 ∧ SpritePixel s r c ∧
    d.x.val = (s.getV x).toNat + c ∧ d.y.val = (s.getV y).toNat + r

/-- A pixel of the sprite falls outside the grid (R284). -/
def PixelOffGrid (s : State) (x y : Nibble) (r c : Nat) : Prop :=
  SpritePixel s r c ∧ (63 < (s.getV x).toNat + c ∨ 31 < (s.getV y).toNat + r)

/-- `(r, c)` comes before `(r', c')` in row-major order. -/
def RowMajorBefore (r c r' c' : Nat) : Prop := r < r' ∨ r = r' ∧ c < c'

/-- The cells of the 1 bits of the sprite, in the order of the index calls: row 0 first, and in a row column 0 first
(R283). -/
def spriteTargets (s : State) (x y n : Nibble) : List Coord :=
  (List.range n.toNat).flatMap fun r =>
    (List.range 8).filterMap fun c =>
      if (s.readByte (s.i.toNat + r)).getLsbD (7 - c) then Coord.at? ((s.getV x).toNat + c) ((s.getV y).toNat + r)
      else none

/-! ### Who writes what (10_state.md R32) -/

/-- The general registers an instruction may write. -/
def writtenRegs : Instr → List Nibble
  | .cls _ | .ret _ | .jp _ | .call _ | .seByte _ _ | .sneByte _ _ | .seReg _ _ _ | .sneReg _ _ _ | .jpV0 _ => []
  | .ldByte x _ | .addByte x _ | .ldReg x _ | .orReg x _ | .andReg x _ | .xorReg x _ | .rnd x _ => [x]
  | .addReg x _ | .subReg x _ | .subnReg x _ | .shr x _ | .shl x _ => [x, 0xF]
  | .drw _ _ _ => [0xF]
  | .ldVxDt x | .ldVxK x => [x]
  | .ldI _ | .skp _ | .sknp _ | .ldDtVx _ | .ldStVx _ | .addI _ | .ldF _ | .ldB _ | .stRegs _ => []
  | .ldRegs x => (List.range (x.toNat + 1)).map (BitVec.ofNat 4)

/-! ### Invariants -/

/-- Memory is in canonical form: addresses of the address space, strictly rising, no redundant entry. -/
def MemoryCanonical (s : State) : Prop := Mem.wf s.mem

/-- The pixel index is in canonical form and meets `INV` (10_state.md R43). -/
def IndexConsistent (s : State) : Prop := s.index.wf ∧ s.index.Inv

/-- Every address on the stack is one an instruction was fetched from, and `PC` is at most 0x10FE
(41_cycle.md R176). -/
def FlowBounded (s : State) : Prop :=
  s.pc.toNat ≤ 0x10FE ∧
    ∀ (k : Nat) (h : k < s.sp.val), 0x200 ≤ (s.stack[k]'(by omega)).toNat ∧ (s.stack[k]'(by omega)).toNat ≤ 0xFFE ∧
      (s.stack[k]'(by omega)).toNat % 2 = 0

/-- `STATUS` is clear in a block that is not halted, its cause is never INDEX_BOUNDS or reserved, a recorded fault is
at `PC`, and a block is halted without a cause exactly when its program did not fit. -/
def StatusLegal (s : State) : Prop :=
  (s.status.halted = false → s.status = ⟨false, 0, 0, 0, 0⟩ ∧ s.loadError = false) ∧
  (s.status.halted = true → (s.loadError = true ↔ s.status.cause = 0)) ∧
  s.status.cause.toNat ≤ 8 ∧
  (s.status.cause ≠ 0 → s.status.fpc = s.pc)

/-- The diagnostic output is code 1 with an unknown opcode, or all 0 (60_exceptions.md R331). -/
def DiagnosticLegal (s : State) : Prop :=
  (s.out.diagValid = true → s.out.diagCode = 1 ∧ wellFormedWord s.out.diagOp = false) ∧
  (s.out.diagValid = false → s.out.diagCode = 0 ∧ s.out.diagOp = 0)

/-- All invariants together. -/
def Inv (s : State) : Prop :=
  MemoryCanonical s ∧ IndexConsistent s ∧ FlowBounded s ∧ StatusLegal s ∧ DiagnosticLegal s

end Sys2Proof.Safety
end

