-- ==== Sys2Proof/Certificates/Slice0/Obligations.lean ====
section
/-! DEFINITION. The statements for the provers. Each docstring names the rule of spec/ it formalises. -/

open Sys2Proof Sys2Proof.Machine Sys2Proof.Safety

/-! ### Encoding (30_encoding.md) -/

/-- R116, R118: the decoder takes exactly the words some row of the opcode map takes, and reports every other word as
the unknown opcode it is. -/
def Obligations.DecoderTakesExactlyTheOpcodeMap : Prop :=
  ∀ op : Word,
    (wellFormedWord op = true → ∃ i, decodeWord op = .ok i ∧ i.row.takes op = true) ∧
    (wellFormedWord op = false → decodeWord op = .error (.unknownOpcode op))

/-- R115: no word is taken by two rows of the opcode map. -/
def Obligations.OpcodeMapRowsDoNotOverlap : Prop :=
  opcodeMap.Pairwise (fun r q => ∀ op : Word, ¬(r.takes op = true ∧ q.takes op = true))

/-- Decoding the encoding of an instruction gives it back, with every operand at every value. -/
def Obligations.DecodeOfEncodeIsTheInstruction : Prop :=
  ∀ i : Instr, decodeWord (encode i) = .ok i

/-- Encoding a decoded instruction gives the word back: no bit of a word is dropped. -/
def Obligations.EncodeOfDecodeIsTheWord : Prop :=
  ∀ (op : Word) (i : Instr), decodeWord op = .ok i → encode i = op

/-- Words written out from R115, and unknown words of R116. -/
def Obligations.WorkedWordsDecode : Prop :=
  decodeWord 0x00E0 = .ok (.cls 0) ∧ decodeWord 0x0AEE = .ok (.ret 0xA) ∧ decodeWord 0x1ABC = .ok (.jp 0xABC) ∧
  decodeWord 0x7201 = .ok (.addByte 2 1) ∧ decodeWord 0x8014 = .ok (.addReg 0 1) ∧
  decodeWord 0x9AB1 = .ok (.sneReg 0xA 0xB 1) ∧ decodeWord 0xD005 = .ok (.drw 0 0 5) ∧
  decodeWord 0xE5A1 = .ok (.sknp 5) ∧ decodeWord 0xF265 = .ok (.ldRegs 2) ∧
  decodeWord 0x0123 = .error (.unknownOpcode 0x0123) ∧ decodeWord 0x800F = .error (.unknownOpcode 0x800F)

/-- R114, R117, R239, R241: the bits the decoder ignores change no effect; of `00EE` they reach `STATUS.FOP` alone. -/
def Obligations.IgnoredBitsHaveNoEffect : Prop :=
  (∀ (a b : Nibble) (s : State), exec (.cls a) s = exec (.cls b) s) ∧
  (∀ (x y a b : Nibble) (s : State), exec (.seReg x y a) s = exec (.seReg x y b) s) ∧
  (∀ (x y a b : Nibble) (s : State), exec (.sneReg x y a) s = exec (.sneReg x y b) s) ∧
  (∀ (x a b : Nibble) (s : State), exec (.shr x a) s = exec (.shr x b) s) ∧
  (∀ (x a b : Nibble) (s : State), exec (.shl x a) s = exec (.shl x b) s) ∧
  (∀ (a b : Nibble) (s : State), ∃ t u, exec (.ret a) s = .next t ∧ exec (.ret b) s = .next u ∧
    u = { t with status := { t.status with fop := u.status.fop } } ∧ (s.sp.val ≠ 0 → u = t))

/-! ### The step (41_cycle.md) -/

/-- Where the bytes at `PC` decode to an instruction, a step is the host's acknowledgement, the latch, the execute phase
of that instruction, and `finishStep`: the timer step, or where it faulted the latches of before the step. The order is
R179's; that the latches go back on a fault is the model's reading of R14 and R323 beside R174 and R179 (log entry 9);
the host's turns, their acknowledgement and the free inputs are the model's own (log entry 6). -/
def Obligations.StepRunsTheDecodedInstruction : Prop :=
  ∀ (s : State) (i : Instr), s.status.halted = false → Fetchable s → decodeWord (opcodeAt s) = .ok i →
    step s = finishStep s (exec i
      { s with
        clearRequested := s.clearRequested && !s.nextTurn.ack
        out := Outputs.quiet
        key := s.nextTurn.keys
        rndIn := s.nextTurn.rnd
        schedule := s.schedule.tail
        turn := s.turn + 1 })

/-- A fetch outside 0x200 to 0xFFE faults with FETCH_RANGE, odd or not; inside it, at an odd address, with
FETCH_MISALIGNED (R170, R171, R324, R325). Nothing but `STATUS` and the outputs changes, `KEY` and `RNDIN` included, as
R14 and R323 say (log entry 9). -/
def Obligations.FetchFaultsOutsideTheProgramAndAtOddAddresses : Prop :=
  (∀ (keys : BitVec 16) (rnd : Byte) (s : State), s.status.halted = false → s.pc.toNat < 0x200 ∨ 0xFFE < s.pc.toNat →
    ∃ t, s.request keys rnd = .next t ∧ Faulted 1 0 s.pc s t) ∧
  (∀ (keys : BitVec 16) (rnd : Byte) (s : State), s.status.halted = false → 0x200 ≤ s.pc.toNat →
      s.pc.toNat ≤ 0xFFE → s.pc.toNat % 2 = 1 →
    ∃ t, s.request keys rnd = .next t ∧ Faulted 2 0 s.pc s t)

/-- R177: an unknown opcode gives the diagnostic and `PC + 2`; the timers count; nothing else changes. -/
def Obligations.UnknownOpcodeReportsAndAdvances : Prop :=
  ∀ (keys : BitVec 16) (rnd : Byte) (s : State), s.status.halted = false → Fetchable s →
      wellFormedWord (opcodeAt s) = false →
    ∃ t, s.request keys rnd = .next t ∧
      t.out.diagValid = true ∧ t.out.diagCode = 1 ∧ t.out.diagOp = opcodeAt s ∧ t.pc.toNat = s.pc.toNat + 2 ∧
      t.dt.toNat = s.dt.toNat - 1 ∧ t.st.toNat = s.st.toNat - 1 ∧ (t.out.tone = true ↔ s.st.toNat = 1) ∧
      t = { latched keys rnd s with pc := t.pc, dt := t.dt, st := t.st, out := t.out } ∧ SameBytes s t

/-- R173, R326: a request to a halted block changes nothing and its outputs are quiet; however many turns the host
takes, `STATUS` and everything the host does not drive stay; `clear_ack` does not clear `STATUS`; a reset does. -/
def Obligations.HaltedBlockStaysHalted : Prop :=
  (∀ (keys : BitVec 16) (rnd : Byte) (s : State), s.status.halted = true →
    s.request keys rnd = .next { s with out := ⟨false, false, 0, 0⟩ }) ∧
  (∀ (k : Nat) (s : State), s.status.halted = true → ∃ t, Sys2Proof.core.run k s = .next t ∧ t.status = s.status ∧
    t = { s with clearRequested := t.clearRequested, out := t.out, schedule := t.schedule, turn := t.turn }) ∧
  (∀ s : State, s.ackClear.status = s.status) ∧
  (∀ (s other : State) (memInit : Nat → Byte) (prog : List Byte), prog.length ≤ 3584 →
    (s.hostReset memInit prog other).status = ⟨false, 0, 0, 0, 0⟩)

/-- A step that faults changes `STATUS` alone and its outputs are quiet; `FPC` is the address of the faulting
instruction; `FOP` is 0 for a fetch fault and the fetched opcode otherwise (R14, R178, R323, R325, R327). `KEY` and
`RNDIN` keep their values of before the step, as R14 and R323 say (log entry 9). -/
def Obligations.FaultingStepChangesOnlyStatus : Prop :=
  ∀ (keys : BitVec 16) (rnd : Byte) (s t : State), s.status.halted = false → s.request keys rnd = .next t →
      t.status.halted = true →
    t = { s with status := t.status, out := ⟨false, false, 0, 0⟩ } ∧ t.status.fpc = s.pc ∧ t.status.cause ≠ 0 ∧
      (t.status.cause.toNat ≤ 2 → t.status.fop = 0) ∧ (2 < t.status.cause.toNat → t.status.fop = opcodeAt s)

/-- R180, R181: a step that completes ends with the timer step, which counts the values the execute phase left, and
raises the tone exactly when the sound timer was left at 1. -/
def Obligations.CompletedStepCountsTheTimers : Prop :=
  ∀ (keys : BitVec 16) (rnd : Byte) (s t : State), s.status.halted = false → s.request keys rnd = .next t →
      t.status.halted = false →
    ∃ u, (latched keys rnd s).execWord (opcodeAt s) = .next u ∧
      t.dt.toNat = u.dt.toNat - 1 ∧ t.st.toNat = u.st.toNat - 1 ∧ (t.out.tone = true ↔ u.st.toNat = 1) ∧
      t = { u with dt := t.dt, st := t.st, out := { u.out with tone := t.out.tone } }

/-- Every instruction, in every state, answers a next state, and so does every step: the model never stops. -/
def Obligations.EveryInstructionAndStepAnswers : Prop :=
  (∀ (i : Instr) (s : State), ∃ t, exec i s = .next t) ∧ (∀ s : State, ∃ t, step s = .next t)

/-! ### Control (42_control.md) -/

/-- R200. -/
def Obligations.ClsEmptiesTheDisplay : Prop :=
  Encoded 0xF0FF 0x00E0 (fun op => .cls (fieldX op)) ∧
  ∀ (ign : Nibble) (s : State), ∃ t, exec (.cls ign) s = .next t ∧
    t.clearRequested = true ∧ t.index.list = [] ∧ (s.index.Inv → ∀ (d : Coord), t.index.active d = false) ∧
    t = { s with clearRequested := true, index := t.index, pc := s.pc + 2 } ∧ SameRegs [] s t ∧ SameBytes s t

/-- R201: with an address on the stack, `00EE` resumes after the call; with none, it faults. -/
def Obligations.RetPopsOrFaults : Prop :=
  Encoded 0xF0FF 0x00EE (fun op => .ret (fieldX op)) ∧
  (∀ (ign : Nibble) (s : State) (h : 0 < s.sp.val), ∃ t, exec (.ret ign) s = .next t ∧
    t.sp.val = s.sp.val - 1 ∧ t.pc = s.stack[s.sp.val - 1]'(by omega) + 2 ∧
    t = { s with sp := t.sp, pc := t.pc } ∧ SameRegs [] s t ∧ SameBytes s t) ∧
  (∀ (op : Word) (s : State), op &&& 0xF0FF = 0x00EE → s.sp.val = 0 →
    ∃ t, exec (.ret (fieldX op)) s = .next t ∧ Faulted 4 op 0 s t)

/-- R202, R208. -/
def Obligations.JumpsSetThePc : Prop :=
  Encoded 0xF000 0x1000 (fun op => .jp (fieldNNN op)) ∧
  Encoded 0xF000 0xB000 (fun op => .jpV0 (fieldNNN op)) ∧
  (∀ (nnn : Addr) (s : State), ∃ t, exec (.jp nnn) s = .next t ∧ t.pc.toNat = nnn.toNat ∧ OnlyRegs [] s t) ∧
  (∀ (nnn : Addr) (s : State), ∃ t, exec (.jpV0 nnn) s = .next t ∧ t.pc.toNat = nnn.toNat + (s.getV 0).toNat ∧
      OnlyRegs [] s t)

/-- R203: below 16 addresses, `2NNN` pushes its own address and jumps; at 16 it faults. -/
def Obligations.CallPushesOrFaults : Prop :=
  Encoded 0xF000 0x2000 (fun op => .call (fieldNNN op)) ∧
  (∀ (nnn : Addr) (s : State), s.sp.val < 16 → ∃ t, exec (.call nnn) s = .next t ∧
    t.sp.val = s.sp.val + 1 ∧ t.pc.toNat = nnn.toNat ∧
    (∀ (k : Nat) (h : k < 16), t.stack[k] = if k = s.sp.val then s.pc else s.stack[k]) ∧
    t = { s with stack := t.stack, sp := t.sp, pc := t.pc } ∧ SameRegs [] s t ∧ SameBytes s t) ∧
  (∀ (op : Word) (s : State), op &&& 0xF000 = 0x2000 → s.sp.val = 16 →
    ∃ t, exec (.call (fieldNNN op)) s = .next t ∧ Faulted 3 op ((fieldNNN op).setWidth 16) s t)

/-- R201, R203: a return from the state of the stack a call left resumes at the instruction after the call, with the
depth of before the call. -/
def Obligations.ReturnResumesAfterTheCall : Prop :=
  ∀ (nnn : Addr) (ign : Nibble) (s : State), s.sp.val < 16 → ∃ t, exec (.call nnn) s = .next t ∧
    ∀ u : State, u.stack = t.stack → u.sp = t.sp →
      ∃ w, exec (.ret ign) u = .next w ∧ w.pc = s.pc + 2 ∧ w.sp = s.sp

/-- R204, R205. -/
def Obligations.SkipOnConstant : Prop :=
  Encoded 0xF000 0x3000 (fun op => .seByte (fieldX op) (fieldNN op)) ∧
  Encoded 0xF000 0x4000 (fun op => .sneByte (fieldX op) (fieldNN op)) ∧
  (∀ (x : Nibble) (nn : Byte) (s : State), ∃ t, exec (.seByte x nn) s = .next t ∧
    t.pc = (if (s.getV x).toNat = nn.toNat then s.pc + 4 else s.pc + 2) ∧ OnlyRegs [] s t) ∧
  (∀ (x : Nibble) (nn : Byte) (s : State), ∃ t, exec (.sneByte x nn) s = .next t ∧
    t.pc = (if (s.getV x).toNat ≠ nn.toNat then s.pc + 4 else s.pc + 2) ∧ OnlyRegs [] s t)

/-- R206, R207. -/
def Obligations.SkipOnRegister : Prop :=
  Encoded 0xF000 0x5000 (fun op => .seReg (fieldX op) (fieldY op) (fieldN op)) ∧
  Encoded 0xF000 0x9000 (fun op => .sneReg (fieldX op) (fieldY op) (fieldN op)) ∧
  (∀ (x y ign : Nibble) (s : State), ∃ t, exec (.seReg x y ign) s = .next t ∧
    t.pc = (if (s.getV x).toNat = (s.getV y).toNat then s.pc + 4 else s.pc + 2) ∧ OnlyRegs [] s t) ∧
  (∀ (x y ign : Nibble) (s : State), ∃ t, exec (.sneReg x y ign) s = .next t ∧
    t.pc = (if (s.getV x).toNat ≠ (s.getV y).toNat then s.pc + 4 else s.pc + 2) ∧ OnlyRegs [] s t)

/-! ### Registers and arithmetic (43_alu.md) -/

/-- R231, R233. -/
def Obligations.LoadsSetOneRegister : Prop :=
  Encoded 0xF000 0x6000 (fun op => .ldByte (fieldX op) (fieldNN op)) ∧
  Encoded 0xF00F 0x8000 (fun op => .ldReg (fieldX op) (fieldY op)) ∧
  (∀ (x : Nibble) (nn : Byte) (s : State), ∃ t, exec (.ldByte x nn) s = .next t ∧ t.getV x = nn ∧ t.pc = s.pc + 2 ∧
      OnlyRegs [x] s t) ∧
  (∀ (x y : Nibble) (s : State), ∃ t, exec (.ldReg x y) s = .next t ∧ t.getV x = s.getV y ∧ t.pc = s.pc + 2 ∧
      OnlyRegs [x] s t)

/-- R232: modulo 256, no flag. -/
def Obligations.AddConstantWraps : Prop :=
  Encoded 0xF000 0x7000 (fun op => .addByte (fieldX op) (fieldNN op)) ∧
  ∀ (x : Nibble) (nn : Byte) (s : State), ∃ t, exec (.addByte x nn) s = .next t ∧
    (t.getV x).toNat = ((s.getV x).toNat + nn.toNat) % 256 ∧ t.pc = s.pc + 2 ∧ OnlyRegs [x] s t

/-- R234, R235, R236: bit by bit, no flag. -/
def Obligations.LogicIsBitwise : Prop :=
  Encoded 0xF00F 0x8001 (fun op => .orReg (fieldX op) (fieldY op)) ∧
  Encoded 0xF00F 0x8002 (fun op => .andReg (fieldX op) (fieldY op)) ∧
  Encoded 0xF00F 0x8003 (fun op => .xorReg (fieldX op) (fieldY op)) ∧
  (∀ (x y : Nibble) (s : State), ∃ t, exec (.orReg x y) s = .next t ∧
    (∀ (k : Nat), (t.getV x).getLsbD k = ((s.getV x).getLsbD k || (s.getV y).getLsbD k)) ∧
    t.pc = s.pc + 2 ∧ OnlyRegs [x] s t) ∧
  (∀ (x y : Nibble) (s : State), ∃ t, exec (.andReg x y) s = .next t ∧
    (∀ (k : Nat), (t.getV x).getLsbD k = ((s.getV x).getLsbD k && (s.getV y).getLsbD k)) ∧
    t.pc = s.pc + 2 ∧ OnlyRegs [x] s t) ∧
  (∀ (x y : Nibble) (s : State), ∃ t, exec (.xorReg x y) s = .next t ∧
    (∀ (k : Nat), (t.getV x).getLsbD k = Bool.xor ((s.getV x).getLsbD k) ((s.getV y).getLsbD k)) ∧
    t.pc = s.pc + 2 ∧ OnlyRegs [x] s t)

/-- R237: the sum modulo 256, and then the carry in `VF`, which is what `VF` holds also when `X = F`. -/
def Obligations.AddSetsCarry : Prop :=
  Encoded 0xF00F 0x8004 (fun op => .addReg (fieldX op) (fieldY op)) ∧
  ∀ (x y : Nibble) (s : State), ∃ t, exec (.addReg x y) s = .next t ∧
    (x ≠ 0xF → (t.getV x).toNat = ((s.getV x).toNat + (s.getV y).toNat) % 256) ∧
    (t.getV 0xF).toNat = (if 255 < (s.getV x).toNat + (s.getV y).toNat then 1 else 0) ∧
    t.pc = s.pc + 2 ∧ OnlyRegs [x, 0xF] s t

/-- R238, R240: the difference modulo 256, and then NOT borrow in `VF`. -/
def Obligations.SubtractsSetNotBorrow : Prop :=
  Encoded 0xF00F 0x8005 (fun op => .subReg (fieldX op) (fieldY op)) ∧
  Encoded 0xF00F 0x8007 (fun op => .subnReg (fieldX op) (fieldY op)) ∧
  (∀ (x y : Nibble) (s : State), ∃ t, exec (.subReg x y) s = .next t ∧
    (x ≠ 0xF → (t.getV x).toNat = (256 + (s.getV x).toNat - (s.getV y).toNat) % 256) ∧
    (t.getV 0xF).toNat = (if (s.getV y).toNat ≤ (s.getV x).toNat then 1 else 0) ∧
    t.pc = s.pc + 2 ∧ OnlyRegs [x, 0xF] s t) ∧
  (∀ (x y : Nibble) (s : State), ∃ t, exec (.subnReg x y) s = .next t ∧
    (x ≠ 0xF → (t.getV x).toNat = (256 + (s.getV y).toNat - (s.getV x).toNat) % 256) ∧
    (t.getV 0xF).toNat = (if (s.getV x).toNat ≤ (s.getV y).toNat then 1 else 0) ∧
    t.pc = s.pc + 2 ∧ OnlyRegs [x, 0xF] s t)

/-- R239, R241: `V[X]` shifted in place, and then the bit shifted out in `VF`. -/
def Obligations.ShiftsSetTheBitShiftedOut : Prop :=
  Encoded 0xF00F 0x8006 (fun op => .shr (fieldX op) (fieldY op)) ∧
  Encoded 0xF00F 0x800E (fun op => .shl (fieldX op) (fieldY op)) ∧
  (∀ (x ign : Nibble) (s : State), ∃ t, exec (.shr x ign) s = .next t ∧
    (x ≠ 0xF → (t.getV x).toNat = (s.getV x).toNat / 2) ∧ (t.getV 0xF).toNat = (s.getV x).toNat % 2 ∧
    t.pc = s.pc + 2 ∧ OnlyRegs [x, 0xF] s t) ∧
  (∀ (x ign : Nibble) (s : State), ∃ t, exec (.shl x ign) s = .next t ∧
    (x ≠ 0xF → (t.getV x).toNat = (s.getV x).toNat * 2 % 256) ∧ (t.getV 0xF).toNat = (s.getV x).toNat / 128 ∧
    t.pc = s.pc + 2 ∧ OnlyRegs [x, 0xF] s t)

/-- R242: the byte of the step's random input, whatever it is, under the mask. -/
def Obligations.RandomIsTheInputMasked : Prop :=
  Encoded 0xF000 0xC000 (fun op => .rnd (fieldX op) (fieldNN op)) ∧
  (∀ (x : Nibble) (nn : Byte) (s : State), ∃ t, exec (.rnd x nn) s = .next t ∧
    (∀ (k : Nat), (t.getV x).getLsbD k = (s.rndIn.getLsbD k && nn.getLsbD k)) ∧ t.pc = s.pc + 2 ∧ OnlyRegs [x] s t) ∧
  (∀ (keys : BitVec 16) (rnd : Byte) (s : State), s.status.halted = false → Fetchable s →
      opcodeAt s &&& 0xF000 = 0xC000 →
    ∃ t, s.request keys rnd = .next t ∧ t.getV (fieldX (opcodeAt s)) = rnd &&& fieldNN (opcodeAt s))

/-! ### Index register and memory (44_memory_ops.md) -/

/-- R261, R262. -/
def Obligations.IndexRegisterLoadsAndAdds : Prop :=
  Encoded 0xF000 0xA000 (fun op => .ldI (fieldNNN op)) ∧
  Encoded 0xF0FF 0xF01E (fun op => .addI (fieldX op)) ∧
  (∀ (nnn : Addr) (s : State), ∃ t, exec (.ldI nnn) s = .next t ∧ t.i.toNat = nnn.toNat ∧
    t = { s with i := t.i, pc := s.pc + 2 } ∧ SameRegs [] s t ∧ SameBytes s t) ∧
  (∀ (x : Nibble) (s : State), ∃ t, exec (.addI x) s = .next t ∧ t.i.toNat = (s.i.toNat + (s.getV x).toNat) % 65536 ∧
    t = { s with i := t.i, pc := s.pc + 2 } ∧ SameRegs [] s t ∧ SameBytes s t)

/-- R263: `I` points at the digit's glyph; a value above 0xF faults. -/
def Obligations.FontAddressOrFault : Prop :=
  Encoded 0xF0FF 0xF029 (fun op => .ldF (fieldX op)) ∧
  (∀ (x : Nibble) (s : State), (s.getV x).toNat ≤ 0xF → ∃ t, exec (.ldF x) s = .next t ∧
      t.i.toNat = 5 * (s.getV x).toNat ∧
    t = { s with i := t.i, pc := s.pc + 2 } ∧ SameRegs [] s t ∧ SameBytes s t) ∧
  (∀ (op : Word) (s : State), op &&& 0xF0FF = 0xF029 → 0xF < (s.getV (fieldX op)).toNat →
    ∃ t, exec (.ldF (fieldX op)) s = .next t ∧ Faulted 8 op ((s.getV (fieldX op)).setWidth 16) s t)

/-- R264: hundreds, tens and units from `I` up; past 0xFFF it faults. -/
def Obligations.BcdStoresThreeDigits : Prop :=
  Encoded 0xF0FF 0xF033 (fun op => .ldB (fieldX op)) ∧
  (∀ (x : Nibble) (s : State), s.i.toNat + 2 ≤ 0xFFF → ∃ t, exec (.ldB x) s = .next t ∧
    (t.readByte s.i.toNat).toNat = (s.getV x).toNat / 100 ∧
    (t.readByte (s.i.toNat + 1)).toNat = (s.getV x).toNat / 10 % 10 ∧
    (t.readByte (s.i.toNat + 2)).toNat = (s.getV x).toNat % 10 ∧
    t = { s with mem := t.mem, pc := s.pc + 2 } ∧ SameRegs [] s t ∧ SameBytesOutside s.i.toNat 3 s t) ∧
  (∀ (op : Word) (s : State), op &&& 0xF0FF = 0xF033 → 0xFFF < s.i.toNat + 2 →
    ∃ t info, exec (.ldB (fieldX op)) s = .next t ∧ info.toNat = max s.i.toNat 0x1000 ∧ Faulted 5 op info s t)

/-- R265: `V0` through `VX` from `I` up; past 0xFFF it faults. -/
def Obligations.StoreRegistersCopiesToMemory : Prop :=
  Encoded 0xF0FF 0xF055 (fun op => .stRegs (fieldX op)) ∧
  (∀ (x : Nibble) (s : State), s.i.toNat + x.toNat ≤ 0xFFF → ∃ t, exec (.stRegs x) s = .next t ∧
    (∀ (k : Nat), k ≤ x.toNat → t.readByte (s.i.toNat + k) = s.getV (BitVec.ofNat 4 k)) ∧
    t = { s with mem := t.mem, pc := s.pc + 2 } ∧ SameRegs [] s t ∧
    SameBytesOutside s.i.toNat (x.toNat + 1) s t) ∧
  (∀ (op : Word) (s : State), op &&& 0xF0FF = 0xF055 → 0xFFF < s.i.toNat + (fieldX op).toNat →
    ∃ t info, exec (.stRegs (fieldX op)) s = .next t ∧ info.toNat = max s.i.toNat 0x1000 ∧ Faulted 5 op info s t)

/-- R266: memory from `I` up into `V0` through `VX`; past 0xFFF it faults. -/
def Obligations.LoadRegistersCopiesFromMemory : Prop :=
  Encoded 0xF0FF 0xF065 (fun op => .ldRegs (fieldX op)) ∧
  (∀ (x : Nibble) (s : State), s.i.toNat + x.toNat ≤ 0xFFF → ∃ t, exec (.ldRegs x) s = .next t ∧
    (∀ (z : Nibble), z.toNat ≤ x.toNat → t.getV z = s.readByte (s.i.toNat + z.toNat)) ∧
    (∀ (z : Nibble), x.toNat < z.toNat → t.getV z = s.getV z) ∧
    t = { s with v := t.v, pc := s.pc + 2 } ∧ SameBytes s t) ∧
  (∀ (op : Word) (s : State), op &&& 0xF0FF = 0xF065 → 0xFFF < s.i.toNat + (fieldX op).toNat →
    ∃ t info, exec (.ldRegs (fieldX op)) s = .next t ∧ info.toNat = max s.i.toNat 0x1000 ∧ Faulted 5 op info s t)

/-- R92, R80: two neighbouring bytes that `FX55` or `FX33` stores are what a later fetch there reads, the byte at the
lower address times 256 plus the other. -/
def Obligations.StoredBytesAreFetched : Prop :=
  (∀ (x : Nibble) (s : State), s.i.toNat + x.toNat ≤ 0xFFF → ∃ t, exec (.stRegs x) s = .next t ∧
    ∀ (k : Nat) (u : State), k < x.toNat → u.mem = t.mem → u.pc.toNat = s.i.toNat + k → Fetchable u →
      ∃ op, u.fetch = .ok op ∧
        op.toNat = 256 * (s.getV (BitVec.ofNat 4 k)).toNat + (s.getV (BitVec.ofNat 4 (k + 1))).toNat) ∧
  (∀ (x : Nibble) (s : State), s.i.toNat + 2 ≤ 0xFFF → ∃ t, exec (.ldB x) s = .next t ∧
    ∀ u : State, u.mem = t.mem → Fetchable u →
      (u.pc.toNat = s.i.toNat → ∃ op, u.fetch = .ok op ∧
        op.toNat = 256 * ((s.getV x).toNat / 100) + (s.getV x).toNat / 10 % 10) ∧
      (u.pc.toNat = s.i.toNat + 1 → ∃ op, u.fetch = .ok op ∧
        op.toNat = 256 * ((s.getV x).toNat / 10 % 10) + (s.getV x).toNat % 10))

/-! ### Draw (45_draw.md) -/

/-- R280 to R284: MEM_RANGE first, then DRAW_BOUNDS for the first pixel off the grid in row-major order; otherwise
the pixels toggle their cells in that order, the others stay, and `VF` is the collision. -/
def Obligations.DrawFollowsItsRule : Prop :=
  Encoded 0xF000 0xD000 (fun op => .drw (fieldX op) (fieldY op) (fieldN op)) ∧
  (∀ (x y n : Nibble) (s : State), n.toNat = 0 ∨ s.i.toNat + n.toNat - 1 ≤ 0xFFF →
    (∀ (r c : Nat), r < n.toNat → c < 8 → ¬PixelOffGrid s x y r c) → s.index.Inv →
    ∃ t, exec (.drw x y n) s = .next t ∧
      t.index = (spriteTargets s x y n).foldl
        (fun p d => if p.active d then p.deactivateCell d else p.activateCell d) s.index ∧
      (∀ (d : Coord), SpriteCovers s x y n d → t.index.active d = !s.index.active d) ∧
      (∀ (d : Coord), ¬SpriteCovers s x y n d → t.index.active d = s.index.active d) ∧
      ((∃ d, SpriteCovers s x y n d ∧ s.index.active d = true) → t.getV 0xF = 1) ∧
      ((∀ (d : Coord), SpriteCovers s x y n d → s.index.active d = false) → t.getV 0xF = 0) ∧
      t = { s with v := t.v, index := t.index, pc := s.pc + 2 } ∧ SameRegs [0xF] s t ∧ SameBytes s t) ∧
  (∀ (op : Word) (s : State), op &&& 0xF000 = 0xD000 → 0 < (fieldN op).toNat →
      0xFFF < s.i.toNat + (fieldN op).toNat - 1 →
    ∃ t info, exec (.drw (fieldX op) (fieldY op) (fieldN op)) s = .next t ∧ info.toNat = max s.i.toNat 0x1000 ∧
      Faulted 5 op info s t) ∧
  (∀ (op : Word) (s : State) (r c : Nat), op &&& 0xF000 = 0xD000 → s.i.toNat + (fieldN op).toNat - 1 ≤ 0xFFF →
      r < (fieldN op).toNat → c < 8 →
    PixelOffGrid s (fieldX op) (fieldY op) r c →
    (∀ (r' c' : Nat), c' < 8 → RowMajorBefore r' c' r c → ¬PixelOffGrid s (fieldX op) (fieldY op) r' c') →
    ∃ t, exec (.drw (fieldX op) (fieldY op) (fieldN op)) s = .next t ∧
      Faulted 6 op (BitVec.ofNat 16 (r * 256 + c)) s t)

/-- Drawing the same sprite twice at the same place gives every cell its earlier state back, and the second draw sets
`VF` to 1 exactly when the first one turned a cell on, and else to 0 (R280's pseudocode; its corner sentence on `VF`
conflicts with it, log entry 14). The second draw may name other registers, as it must where the first one's coordinate
was `VF`. -/
def Obligations.DrawingTwiceRestoresTheDisplay : Prop :=
  ∀ (x y x' y' n : Nibble) (s : State), n.toNat = 0 ∨ s.i.toNat + n.toNat - 1 ≤ 0xFFF →
    (∀ (r c : Nat), r < n.toNat → c < 8 → ¬PixelOffGrid s x y r c) → s.index.Inv →
    ∃ t, exec (.drw x y n) s = .next t ∧
      (t.getV x' = s.getV x → t.getV y' = s.getV y →
        ∃ u, exec (.drw x' y' n) t = .next u ∧ (∀ (d : Coord), u.index.active d = s.index.active d) ∧
          ((∃ d, SpriteCovers s x y n d ∧ s.index.active d = false) → u.getV 0xF = 1) ∧
          ((∀ (d : Coord), SpriteCovers s x y n d → s.index.active d = true) → u.getV 0xF = 0))

/-! ### Keys and timers (46_timers_keys.md) -/

/-- R300, R301: the skip is on the latched level of the key; a register above 0xF faults. -/
def Obligations.KeySkipsReadTheLatch : Prop :=
  Encoded 0xF0FF 0xE09E (fun op => .skp (fieldX op)) ∧
  Encoded 0xF0FF 0xE0A1 (fun op => .sknp (fieldX op)) ∧
  (∀ (x : Nibble) (s : State), (s.getV x).toNat ≤ 0xF → ∃ t, exec (.skp x) s = .next t ∧
    t.pc = (if s.key.getLsbD (s.getV x).toNat = true then s.pc + 4 else s.pc + 2) ∧ OnlyRegs [] s t) ∧
  (∀ (x : Nibble) (s : State), (s.getV x).toNat ≤ 0xF → ∃ t, exec (.sknp x) s = .next t ∧
    t.pc = (if s.key.getLsbD (s.getV x).toNat = false then s.pc + 4 else s.pc + 2) ∧ OnlyRegs [] s t) ∧
  (∀ (op : Word) (s : State), op &&& 0xF0FF = 0xE09E → 0xF < (s.getV (fieldX op)).toNat →
    ∃ t, exec (.skp (fieldX op)) s = .next t ∧ Faulted 7 op ((s.getV (fieldX op)).setWidth 16) s t) ∧
  (∀ (op : Word) (s : State), op &&& 0xF0FF = 0xE0A1 → 0xF < (s.getV (fieldX op)).toNat →
    ∃ t, exec (.sknp (fieldX op)) s = .next t ∧ Faulted 7 op ((s.getV (fieldX op)).setWidth 16) s t)

/-- R302: the register gets the delay timer's value from before the step's decrement. -/
def Obligations.DelayTimerReadsBeforeItCounts : Prop :=
  Encoded 0xF0FF 0xF007 (fun op => .ldVxDt (fieldX op)) ∧
  (∀ (x : Nibble) (s : State), ∃ t, exec (.ldVxDt x) s = .next t ∧ t.getV x = s.dt ∧ t.pc = s.pc + 2 ∧
      OnlyRegs [x] s t) ∧
  (∀ (keys : BitVec 16) (rnd : Byte) (s : State), s.status.halted = false → Fetchable s →
      opcodeAt s &&& 0xF0FF = 0xF007 →
    ∃ t, s.request keys rnd = .next t ∧ t.getV (fieldX (opcodeAt s)) = s.dt ∧ t.dt.toNat = s.dt.toNat - 1)

/-- R303: with no key down a whole step moves the timers and the tone alone; with one down, the lowest is stored and
`PC` advances. -/
def Obligations.KeyWaitTakesTheLowestKey : Prop :=
  Encoded 0xF0FF 0xF00A (fun op => .ldVxK (fieldX op)) ∧
  (∀ (x : Nibble) (s : State), (∀ (k : Nat), k < 16 → s.key.getLsbD k = false) → exec (.ldVxK x) s = .next s) ∧
  (∀ (x : Nibble) (s : State) (k : Nat), k < 16 → s.key.getLsbD k = true → (∀ (j : Nat), j < k →
      s.key.getLsbD j = false) →
    ∃ t, exec (.ldVxK x) s = .next t ∧ (t.getV x).toNat = k ∧ t.pc = s.pc + 2 ∧ OnlyRegs [x] s t) ∧
  (∀ (rnd : Byte) (s : State), s.status.halted = false → Fetchable s → opcodeAt s &&& 0xF0FF = 0xF00A →
    ∃ t, s.request 0 rnd = .next t ∧ t.dt.toNat = s.dt.toNat - 1 ∧ t.st.toNat = s.st.toNat - 1 ∧
      (t.out.tone = true ↔ s.st.toNat = 1) ∧
      t = { latched 0 rnd s with dt := t.dt, st := t.st, out := ⟨t.out.tone, false, 0, 0⟩ })

/-- R304, R305: the timer gets the register's value, and the timer step of the same step counts it down. -/
def Obligations.TimerSetCountsInTheSameStep : Prop :=
  Encoded 0xF0FF 0xF015 (fun op => .ldDtVx (fieldX op)) ∧
  Encoded 0xF0FF 0xF018 (fun op => .ldStVx (fieldX op)) ∧
  (∀ (x : Nibble) (s : State), ∃ t, exec (.ldDtVx x) s = .next t ∧ t.dt = s.getV x ∧
    t = { s with dt := t.dt, pc := s.pc + 2 } ∧ SameRegs [] s t ∧ SameBytes s t) ∧
  (∀ (x : Nibble) (s : State), ∃ t, exec (.ldStVx x) s = .next t ∧ t.st = s.getV x ∧
    t = { s with st := t.st, pc := s.pc + 2 } ∧ SameRegs [] s t ∧ SameBytes s t) ∧
  (∀ (keys : BitVec 16) (rnd : Byte) (s : State), s.status.halted = false → Fetchable s →
      opcodeAt s &&& 0xF0FF = 0xF015 →
    ∃ t, s.request keys rnd = .next t ∧ t.dt.toNat = (s.getV (fieldX (opcodeAt s))).toNat - 1) ∧
  (∀ (keys : BitVec 16) (rnd : Byte) (s : State), s.status.halted = false → Fetchable s →
      opcodeAt s &&& 0xF0FF = 0xF018 →
    ∃ t, s.request keys rnd = .next t ∧ t.st.toNat = (s.getV (fieldX (opcodeAt s))).toNat - 1 ∧
      (t.out.tone = true ↔ (s.getV (fieldX (opcodeAt s))).toNat = 1))

/-! ### Whole-machine rules -/

/-- R83: no instruction but `FX33` and `FX55` changes a byte of memory. -/
def Obligations.OnlyBcdAndStoreRegistersWriteMemory : Prop :=
  ∀ (i : Instr) (s t : State) (a : Nat), exec i s = .next t → t.readByte a ≠ s.readByte a →
      (∃ x, i = .ldB x) ∨ ∃ x, i = .stRegs x

/-- R148: a step changes the pixel index only where it executes `DXYN` or `00E0`; the host's acknowledgement leaves
it. -/
def Obligations.OnlyDrawAndClsMutateTheIndex : Prop :=
  (∀ (i : Instr) (s t : State), exec i s = .next t → t.index ≠ s.index →
      (∃ ign, i = .cls ign) ∨ ∃ x y n, i = .drw x y n) ∧
  (∀ (keys : BitVec 16) (rnd : Byte) (s t : State), s.request keys rnd = .next t → t.index ≠ s.index →
      s.status.halted = false ∧ Fetchable s ∧
        ((∃ ign, decodeWord (opcodeAt s) = .ok (.cls ign)) ∨ ∃ x y n, decodeWord (opcodeAt s) = .ok (.drw x y n))) ∧
  (∀ s : State, s.ackClear.index = s.index)

/-- R33, R35, R36, R37, R40: who writes `I`, the stack, the timers and `clear_requested`. -/
def Obligations.OnlyTheirInstructionsWriteIStackAndTimers : Prop :=
  ∀ (i : Instr) (s t : State), exec i s = .next t →
    (t.i ≠ s.i → (∃ nnn, i = .ldI nnn) ∨ (∃ x, i = .addI x) ∨ ∃ x, i = .ldF x) ∧
    (t.sp ≠ s.sp → (∃ nnn, i = .call nnn) ∨ ∃ ign, i = .ret ign) ∧
    (t.stack ≠ s.stack → ∃ nnn, i = .call nnn) ∧
    (t.dt ≠ s.dt → ∃ x, i = .ldDtVx x) ∧
    (t.st ≠ s.st → ∃ x, i = .ldStVx x) ∧
    (t.clearRequested ≠ s.clearRequested → t.clearRequested = true ∧ ∃ ign, i = .cls ign)

/-- R32: an instruction writes no general register but those the table gives it. -/
def Obligations.RegisterWritesFollowTheTable : Prop :=
  ∀ (i : Instr) (s t : State), exec i s = .next t → SameRegs (writtenRegs i) s t

/-- R140, R324: no instruction raises INDEX_BOUNDS. -/
def Obligations.IndexBoundsIsUnreachable : Prop :=
  ∀ (i : Instr) (s t : State), s.status.cause ≠ 9 → exec i s = .next t → t.status.cause ≠ 9

/-- Memories in canonical form that read the same at every address are the same data. -/
def Obligations.CanonicalMemoriesWithTheSameBytesAreEqual : Prop :=
  ∀ m n : Mem, Mem.wf m → Mem.wf n → (∀ (a : Nat), Mem.read m a = Mem.read n a) → m = n

/-! ### The pixel index (40_pixel_index.md) -/

/-- R147, R43: the operations keep `INV`; `activate` makes its cell active, `deactivate` inactive, and both leave every
other cell's state; `clear` leaves none active. What they do to the list and the indexes is
`IndexOperationsFollowTheirRules`. -/
def Obligations.IndexOperationsKeepTheInvariant : Prop :=
  ∀ (p : PixelIndex) (c : Coord), p.Inv →
    (p.activateCell c).Inv ∧ (∀ (d : Coord), (p.activateCell c).active d = (d == c || p.active d)) ∧
    (p.deactivateCell c).Inv ∧ (∀ (d : Coord), (p.deactivateCell c).active d = (d != c && p.active d)) ∧
    p.clear.Inv ∧ (∀ (d : Coord), p.clear.active d = false) ∧ p.clear.snapshot = []

/-- R140: every operation refuses exactly the coordinates off the grid. -/
def Obligations.IndexOperationsRefuseCoordinatesOffTheGrid : Prop :=
  ∀ (p : PixelIndex) (x y : Nat),
    (p.isActive x y = none ↔ ¬(x < 64 ∧ y < 32)) ∧ (p.activate x y = none ↔ ¬(x < 64 ∧ y < 32)) ∧
    (p.deactivate x y = none ↔ ¬(x < 64 ∧ y < 32))

/-! ### The host and reset (60_exceptions.md, 70_reset_and_hazards.md) -/

/-- R342: the acknowledgement clears `clear_requested` and does nothing else. -/
def Obligations.ClearAckClearsTheRequestAlone : Prop :=
  ∀ s : State, s.ackClear = { s with clearRequested := false }

/-- R362, R364: a blob that fits is copied verbatim to 0x200, bytes not loaded hold `MEM_INIT`, every register is 0, the
stack and the index are empty, the status is clear, and the first fetch is at 0x200 (R48, R360 for the registers). That
`diag_code` and `diag_op` are 0 is the model's reading (log entry 4). -/
def Obligations.ResetLoadsTheProgram : Prop :=
  ∀ (s other : State) (memInit : Nat → Byte) (prog : List Byte), prog.length ≤ 3584 →
    ∃ t, s.hostReset memInit prog other = t ∧
      (∀ (k : Nat), k < prog.length → t.readByte (0x200 + k) = prog.getD k 0) ∧
      (∀ (a : Nat), 0x50 ≤ a → a < 0x200 ∨ 0x200 + prog.length ≤ a → a < 4096 → t.readByte a = memInit a) ∧
      t.pc.toNat = 0x200 ∧ (∀ (z : Nibble), t.getV z = 0) ∧ t.i = 0 ∧ t.sp.val = 0 ∧ t.dt = 0 ∧ t.st = 0 ∧
      t.index.list = [] ∧ (∀ (d : Coord), t.index.active d = false) ∧ t.clearRequested = false ∧
      t.status = ⟨false, 0, 0, 0, 0⟩ ∧ t.loadError = false ∧ t.out = ⟨false, false, 0, 0⟩

/-- R361, R38: after a reset the glyph of digit `d` is at `5 d`, one byte per row. The bytes are the spec's general
knowledge (log entry 2). -/
def Obligations.ResetLoadsTheFont : Prop :=
  ∀ (s other : State) (memInit : Nat → Byte) (prog : List Byte), prog.length ≤ 3584 →
    ∃ t, s.hostReset memInit prog other = t ∧ ∀ (d r : Nat), d < 16 → r < 5 →
      t.readByte (5 * d + r) =
        (([[0xF0, 0x90, 0x90, 0x90, 0xF0], [0x20, 0x60, 0x20, 0x20, 0x70], [0xF0, 0x10, 0xF0, 0x80, 0xF0],
           [0xF0, 0x10, 0xF0, 0x10, 0xF0], [0x90, 0x90, 0xF0, 0x10, 0x10], [0xF0, 0x80, 0xF0, 0x10, 0xF0],
           [0xF0, 0x80, 0xF0, 0x90, 0xF0], [0xF0, 0x10, 0x20, 0x40, 0x40]] ++
          [[0xF0, 0x90, 0xF0, 0x90, 0xF0], [0xF0, 0x90, 0xF0, 0x10, 0xF0], [0xF0, 0x90, 0xF0, 0x90, 0x90],
           [0xE0, 0x90, 0xE0, 0x90, 0xE0], [0xF0, 0x80, 0x80, 0x80, 0xF0], [0xE0, 0x90, 0x90, 0x90, 0xE0],
           [0xF0, 0x80, 0xF0, 0x80, 0xF0], [0xF0, 0x80, 0xF0, 0x80, 0x80]] : List (List Byte)).getD d []).getD r 0

/-- R363: a blob that does not fit leaves `load_error` and a halted block without a cause, and no step runs. -/
def Obligations.ResetRefusesALongProgram : Prop :=
  ∀ (s other : State) (memInit : Nat → Byte) (prog : List Byte), 3584 < prog.length →
    ∃ t, s.hostReset memInit prog other = t ∧ t.loadError = true ∧ t.status.halted = true ∧ t.status.cause = 0 ∧
      ∀ (keys : BitVec 16) (rnd : Byte), t.request keys rnd = .next { t with out := ⟨false, false, 0, 0⟩ }

/-- The state the model starts in is that of a reset with the empty blob and `MEM_INIT` = 0, the model's choice (log
entry 1), of a block whose host has scheduled nothing. -/
def Obligations.StateResetIsAReset : Prop :=
  ∀ other : State, State.reset.hostReset (fun _ => 0) [] other = State.reset

/-! ### Invariants -/

/-- The state after reset meets every invariant. -/
def Obligations.ResetMeetsTheInvariants : Prop := Inv State.reset

/-- Every step keeps memory in canonical form. -/
def Obligations.StepKeepsMemoryCanonical : Prop :=
  ∀ (s t : State), MemoryCanonical s → step s = .next t → MemoryCanonical t

/-- R43: every step keeps the pixel index consistent. -/
def Obligations.StepKeepsTheIndexConsistent : Prop :=
  ∀ (s t : State), IndexConsistent s → step s = .next t → IndexConsistent t

/-- R176: every step keeps the stacked addresses fetchable and `PC` at most 0x10FE. -/
def Obligations.StepKeepsTheFlowBounded : Prop :=
  ∀ (s t : State), FlowBounded s → step s = .next t → FlowBounded t

/-- R323, R324, R331: every step keeps `STATUS` and the diagnostic output legal. -/
def Obligations.StepKeepsStatusAndDiagnosticLegal : Prop :=
  (∀ (s t : State), StatusLegal s → step s = .next t → StatusLegal t) ∧
  (∀ (s t : State), DiagnosticLegal s → step s = .next t → DiagnosticLegal t)

/-- Every move of the host keeps every invariant: a step request with any inputs, an acknowledgement, a reset with any
program and any initial memory (what a refused reset leaves open is any state that meets them). -/
def Obligations.HostMovesKeepTheInvariants : Prop :=
  (∀ (s t : State) (keys : BitVec 16) (rnd : Byte), Inv s → s.hostMove (.step keys rnd) = .next t → Inv t) ∧
  (∀ (s t : State), Inv s → s.hostMove .clearAck = .next t → Inv t) ∧
  (∀ (s t : State) (memInit : Nat → Byte) (prog : List Byte) (other : State), Inv other →
      s.hostMove (.reset memInit prog other) = .next t → Inv t)

/-! ### Byte order, and the list of the pixel index -/

/-- R80, R172: the byte at `PC` is bits 15..8 of the opcode, the byte at `PC + 1` bits 7..0; that word is what the step
decodes and executes. -/
def Obligations.FetchIsBigEndian : Prop :=
  (∀ (s : State) (op : Word), Fetchable s →
      op.toNat = 256 * (s.readByte s.pc.toNat).toNat + (s.readByte (s.pc.toNat + 1)).toNat → s.fetch = .ok op) ∧
  (∀ (keys : BitVec 16) (rnd : Byte) (s : State) (op : Word), s.status.halted = false → Fetchable s →
      op.toNat = 256 * (s.readByte s.pc.toNat).toNat + (s.readByte (s.pc.toNat + 1)).toNat →
    s.request keys rnd = finishStep s ((latched keys rnd s).execWord op))

/-- R141 to R145: `is_active` is not `INACTIVE`; `activate` appends an inactive cell and gives it the index of its slot;
`deactivate` moves the last entry into the slot of an active cell and drops the last slot; `clear` empties list and
cells; each is what the operation on coordinates answers on the grid; the ports give the list's length and entries. -/
def Obligations.IndexOperationsFollowTheirRules : Prop :=
  (∀ (p : PixelIndex) (c : Coord), p.active c = false ↔ p.cellAt c = none) ∧
  (∀ (p : PixelIndex) (c : Coord), p.isActive c.x.val c.y.val = some (p.active c) ∧
    p.activate c.x.val c.y.val = some (p.activateCell c) ∧ p.deactivate c.x.val c.y.val = some (p.deactivateCell c)) ∧
  (∀ (p : PixelIndex) (c : Coord), p.active c = true → p.activateCell c = p) ∧
  (∀ (p : PixelIndex) (c : Coord), p.Inv → p.active c = false → p.len < 2048 ∧
    (p.activateCell c).list = p.list ++ [c] ∧
    (∀ (d : Coord), (p.activateCell c).cellAt d = if d = c then some p.len else p.cellAt d)) ∧
  (∀ (p : PixelIndex) (c : Coord), p.active c = false → p.deactivateCell c = p) ∧
  (∀ (p : PixelIndex) (c : Coord) (loc : Nat), p.Inv → p.cellAt c = some loc → loc + 1 = p.len →
    (p.deactivateCell c).list = p.list.dropLast ∧
    (∀ (d : Coord), (p.deactivateCell c).cellAt d = if d = c then none else p.cellAt d)) ∧
  (∀ (p : PixelIndex) (c : Coord) (loc : Nat), p.Inv → p.cellAt c = some loc → loc + 1 < p.len →
    ∃ m, m ≠ c ∧ p.list[p.len - 1]? = some m ∧ (p.deactivateCell c).len = p.len - 1 ∧
      (∀ (k : Nat), k < p.len - 1 → (p.deactivateCell c).list[k]? = if k = loc then some m else p.list[k]?) ∧
      (∀ (d : Coord), (p.deactivateCell c).cellAt d =
        if d = c then none else if d = m then some loc else p.cellAt d)) ∧
  (∀ (p : PixelIndex), p.Inv → p.clear.list = [] ∧ ∀ (d : Coord), p.clear.cellAt d = none) ∧
  (∀ (s : State), s.snapLen = s.index.list.length ∧
    ∀ (k : Nat) (h : k < s.index.list.length), s.snapEntry k = some s.index.list[k])
end

