-- ==== Sys2Proof/Laws/Encoding.lean ====
section
/-! SUPPORT. The fields of a word put together from its parts, and back. -/

namespace Sys2Proof

@[simp] theorem family_wordXYN (f x y n : Nibble) : family (wordXYN f x y n) = f := by
  ext k hk
  simp [family, wordXYN]
  grind

@[simp] theorem fieldX_wordXYN (f x y n : Nibble) : fieldX (wordXYN f x y n) = x := by
  ext k hk
  simp [fieldX, wordXYN]
  grind

@[simp] theorem fieldY_wordXYN (f x y n : Nibble) : fieldY (wordXYN f x y n) = y := by
  ext k hk
  simp [fieldY, wordXYN]
  grind

@[simp] theorem fieldN_wordXYN (f x y n : Nibble) : fieldN (wordXYN f x y n) = n := by
  ext k hk
  simp [fieldN, wordXYN]
  grind

@[simp] theorem family_wordXNN (f x : Nibble) (nn : Byte) : family (wordXNN f x nn) = f := by
  ext k hk
  simp [family, wordXNN]
  grind

@[simp] theorem fieldX_wordXNN (f x : Nibble) (nn : Byte) : fieldX (wordXNN f x nn) = x := by
  ext k hk
  simp [fieldX, wordXNN]
  grind

@[simp] theorem fieldNN_wordXNN (f x : Nibble) (nn : Byte) : fieldNN (wordXNN f x nn) = nn := by
  ext k hk
  simp [fieldNN, wordXNN]
  grind

@[simp] theorem family_wordNNN (f : Nibble) (nnn : Addr) : family (wordNNN f nnn) = f := by
  ext k hk
  simp [family, wordNNN]
  grind

@[simp] theorem fieldNNN_wordNNN (f : Nibble) (nnn : Addr) : fieldNNN (wordNNN f nnn) = nnn := by
  ext k hk
  simp [fieldNNN, wordNNN]
  grind

/-- A word is its four nibbles. -/
theorem wordXYN_fields (op : Word) : wordXYN (family op) (fieldX op) (fieldY op) (fieldN op) = op := by
  ext k hk
  simp [wordXYN, family, fieldX, fieldY, fieldN]
  grind

theorem wordXNN_fields (op : Word) : wordXNN (family op) (fieldX op) (fieldNN op) = op := by
  ext k hk
  simp [wordXNN, family, fieldX, fieldNN]
  grind

theorem wordNNN_fields (op : Word) : wordNNN (family op) (fieldNNN op) = op := by
  ext k hk
  simp [wordNNN, family, fieldNNN]
  grind

@[simp] theorem composeWord_bytes (op : Word) : composeWord (highByte op) (lowByte op) = op := by
  ext k hk
  simp [composeWord, highByte, lowByte]
  grind

/-- The value of a word of two bytes: the first one counts 256 times (20_memory.md R80). -/
theorem toNat_composeWord (hi lo : Byte) : (composeWord hi lo).toNat = 256 * hi.toNat + lo.toNat := by
  have h := lo.isLt
  rw [composeWord, BitVec.toNat_append, ← Nat.shiftLeft_add_eq_or_of_lt h, Nat.shiftLeft_eq]
  omega

/-! ### What each decoder of a family answers: the unknown opcode, or an instruction whose word it is -/

/-- The answer of a decoder on `op`: the unknown opcode itself, or an instruction that encodes to `op`. -/
def Faithful (op : Word) (r : Except DecodeError Instr) : Prop :=
  r = .error (.unknownOpcode op) ∨ ∃ i, r = .ok i ∧ encode i = op

theorem faithful_decodeFamily0 {op : Word} (hf : family op = 0x0#4) : Faithful op (decodeFamily0 op) := by
  have h1 := wordXNN_fields op
  rw [hf] at h1
  unfold decodeFamily0
  split_ifs
  all_goals first
    | exact .inl rfl
    | (refine .inr ⟨_, rfl, ?_⟩; simp only [encode]; simp only [*] at h1; exact h1)

theorem faithful_decodeFamily8 {op : Word} (hf : family op = 0x8#4) : Faithful op (decodeFamily8 op) := by
  have h1 := wordXYN_fields op
  rw [hf] at h1
  unfold decodeFamily8
  split_ifs
  all_goals first
    | exact .inl rfl
    | (refine .inr ⟨_, rfl, ?_⟩; simp only [encode]; simp only [*] at h1; exact h1)

theorem faithful_decodeFamilyE {op : Word} (hf : family op = 0xE#4) : Faithful op (decodeFamilyE op) := by
  have h1 := wordXNN_fields op
  rw [hf] at h1
  unfold decodeFamilyE
  split_ifs
  all_goals first
    | exact .inl rfl
    | (refine .inr ⟨_, rfl, ?_⟩; simp only [encode]; simp only [*] at h1; exact h1)

theorem faithful_decodeFamilyF {op : Word} (hf : family op = 0xF#4) : Faithful op (decodeFamilyF op) := by
  have h1 := wordXNN_fields op
  rw [hf] at h1
  unfold decodeFamilyF
  split_ifs
  all_goals first
    | exact .inl rfl
    | (refine .inr ⟨_, rfl, ?_⟩; simp only [encode]; simp only [*] at h1; exact h1)

/-! ### Mask and match of a word put together from its parts -/

theorem and_append {v w : Nat} (a c : BitVec v) (b d : BitVec w) : (a ++ b) &&& (c ++ d) = (a &&& c) ++ (b &&& d) := by
  ext k hk
  simp only [BitVec.getElem_and, BitVec.getElem_append]
  split <;> rfl

theorem nibble_and_ones (f : Nibble) : f &&& 0xF#4 = f := by
  rw [show 0xF#4 = BitVec.allOnes 4 by decide, BitVec.and_allOnes]

theorem byte_and_ones (b : Byte) : b &&& 0xFF#8 = b := by
  rw [show 0xFF#8 = BitVec.allOnes 8 by decide, BitVec.and_allOnes]

theorem mask_wordNNN (f : Nibble) (nnn : Addr) : wordNNN f nnn &&& 0xF000 = wordNNN f 0 :=
  (and_append f 0xF#4 nnn 0#12).trans (by rw [nibble_and_ones, BitVec.and_zero]; rfl)

theorem mask_wordXNN (f x : Nibble) (nn : Byte) : wordXNN f x nn &&& 0xF000 = wordXNN f 0 0 :=
  (and_append (f ++ x) (0xF#4 ++ 0#4) nn 0#8).trans (by
    rw [and_append, nibble_and_ones, BitVec.and_zero, BitVec.and_zero]; rfl)

theorem maskLow_wordXNN (f x : Nibble) (nn : Byte) : wordXNN f x nn &&& 0xF0FF = wordXNN f 0 nn :=
  (and_append (f ++ x) (0xF#4 ++ 0#4) nn 0xFF#8).trans (by
    rw [and_append, nibble_and_ones, byte_and_ones, BitVec.and_zero]; rfl)

theorem mask_wordXYN (f x y n : Nibble) : wordXYN f x y n &&& 0xF000 = wordXYN f 0 0 0 :=
  (and_append (f ++ x) (0xF#4 ++ 0#4) (y ++ n) (0#4 ++ 0#4)).trans (by
    rw [and_append, and_append, nibble_and_ones, BitVec.and_zero, BitVec.and_zero, BitVec.and_zero]; rfl)

theorem maskLow_wordXYN (f x y n : Nibble) : wordXYN f x y n &&& 0xF00F = wordXYN f 0 0 n :=
  (and_append (f ++ x) (0xF#4 ++ 0#4) (y ++ n) (0#4 ++ 0xF#4)).trans (by
    rw [and_append, and_append, nibble_and_ones, nibble_and_ones, BitVec.and_zero, BitVec.and_zero]; rfl)

/-! ### The fields a row of the opcode map fixes -/

theorem family_of_mask {op : Word} {f : Nibble} (h : op &&& 0xF000 = wordXNN f 0 0) : family op = f := by
  have h1 := congrArg family h
  rw [← wordXNN_fields op, mask_wordXNN] at h1
  simpa using h1

theorem family_fieldNN_of_mask {op : Word} {f : Nibble} {nn : Byte} (h : op &&& 0xF0FF = wordXNN f 0 nn) :
    family op = f ∧ fieldNN op = nn := by
  have h1 := congrArg family h
  have h2 := congrArg fieldNN h
  rw [← wordXNN_fields op, maskLow_wordXNN] at h1 h2
  simpa using And.intro h1 h2

theorem family_fieldN_of_mask {op : Word} {f n : Nibble} (h : op &&& 0xF00F = wordXYN f 0 0 n) :
    family op = f ∧ fieldN op = n := by
  have h1 := congrArg family h
  have h2 := congrArg fieldN h
  rw [← wordXYN_fields op, maskLow_wordXYN] at h1 h2
  simpa using And.intro h1 h2

end Sys2Proof
end

