-- ==== Sys2Proof/Laws/Memory.lean ====
section
/-! SUPPORT. Sparse maps and memory: a read after a write, and that every operation keeps the canonical form. -/

namespace Sys2Proof.Machine

/-! ### Sparse maps -/

section Sparse
variable {α : Type}

@[simp] theorem lookup_nil (a : Nat) : lookup ([] : List (Nat × α)) a = none := rfl

theorem lookup_insertKey (m : List (Nat × α)) (a b : Nat) (w : α) :
    lookup (insertKey m a w) b = if b = a then some w else lookup m b := by
  induction m with
  | nil => simp [insertKey, lookup]
  | cons p rest ih =>
    obtain ⟨k, u⟩ := p
    simp only [insertKey]
    split
    · simp only [lookup]
    · split
      · rename_i h; subst h
        simp only [lookup]
        split <;> rfl
      · rename_i hne
        simp only [lookup, ih]
        by_cases hb : b = k
        · have : b ≠ a := fun e => hne (e.symm.trans hb)
          simp [hb, Ne.symm hne]
        · simp [hb]

theorem lookup_eraseKey (m : List (Nat × α)) (a b : Nat) :
    lookup (eraseKey m a) b = if b = a then none else lookup m b := by
  induction m with
  | nil => simp [eraseKey, lookup]
  | cons p rest ih =>
    obtain ⟨k, u⟩ := p
    simp only [eraseKey] at ih
    by_cases hk : k = a
    · simp only [eraseKey, hk, bne_self_eq_false, Bool.false_eq_true, not_false_eq_true, List.filter_cons_of_neg, ih,
        lookup]
      split <;> rfl
    · simp only [eraseKey, bne_iff_ne, ne_eq, hk, not_false_eq_true, List.filter_cons_of_pos, lookup, ih]
      by_cases hb : b = k
      · have : b ≠ a := fun e => hk (hb.symm.trans e)
        simp [hb, hk]
      · simp [hb]

theorem mem_insertKey {m : List (Nat × α)} {a : Nat} {w : α} {p : Nat × α} (h : p ∈ insertKey m a w) :
    p = (a, w) ∨ p ∈ m := by
  induction m with
  | nil => simpa [insertKey] using h
  | cons q rest ih =>
    obtain ⟨k, u⟩ := q
    simp only [insertKey] at h
    split at h
    · simpa using h
    · split at h
      · rcases List.mem_cons.mp h with h | h
        · exact .inl h
        · exact .inr (List.mem_cons_of_mem _ h)
      · rcases List.mem_cons.mp h with h | h
        · exact .inr (by simp [h])
        · exact (ih h).imp_right (List.mem_cons_of_mem _)

theorem rising_insertKey {m : List (Nat × α)} (h : Rising m) (a : Nat) (w : α) : Rising (insertKey m a w) := by
  induction m with
  | nil => simp [insertKey, Rising]
  | cons q rest ih =>
    obtain ⟨k, u⟩ := q
    obtain ⟨hk, hr⟩ := List.pairwise_cons.mp h
    simp only [insertKey]
    split
    · rename_i hlt
      refine List.pairwise_cons.mpr ⟨fun p hp => ?_, h⟩
      rcases List.mem_cons.mp hp with rfl | hp
      · exact hlt
      · exact hlt.trans (hk p hp)
    · split
      · rename_i heq; subst heq
        exact List.pairwise_cons.mpr ⟨hk, hr⟩
      · refine List.pairwise_cons.mpr ⟨fun p hp => ?_, ih hr⟩
        rcases mem_insertKey hp with rfl | hp
        · simp only; omega
        · exact hk p hp

theorem rising_eraseKey {m : List (Nat × α)} (h : Rising m) (a : Nat) : Rising (eraseKey m a) :=
  h.filter _

theorem mem_of_mem_eraseKey {m : List (Nat × α)} {a : Nat} {p : Nat × α} (h : p ∈ eraseKey m a) : p ∈ m :=
  (List.mem_filter.mp h).1

/-- A listed entry of a rising map is what the map looks up. -/
theorem lookup_of_mem {m : List (Nat × α)} (h : Rising m) {a : Nat} {w : α} (hm : (a, w) ∈ m) :
    lookup m a = some w := by
  induction m with
  | nil => simp at hm
  | cons q rest ih =>
    obtain ⟨k, u⟩ := q
    obtain ⟨hk, hr⟩ := List.pairwise_cons.mp h
    rcases List.mem_cons.mp hm with e | hm
    · obtain ⟨rfl, rfl⟩ := Prod.mk.inj e
      simp [lookup]
    · have : k < a := hk _ hm
      simp [lookup, show a ≠ k by omega, ih hr hm]

theorem mem_of_lookup {m : List (Nat × α)} {a : Nat} {w : α} (h : lookup m a = some w) : (a, w) ∈ m := by
  induction m with
  | nil => simp at h
  | cons q rest ih =>
    obtain ⟨k, u⟩ := q
    simp only [lookup] at h
    split at h
    · rename_i e; subst e
      simp_all
    · exact List.mem_cons_of_mem _ (ih h)

/-- Rising maps that look up the same are the same list. -/
theorem rising_ext {m n : List (Nat × α)} (hm : Rising m) (hn : Rising n)
    (h : ∀ a, lookup m a = lookup n a) : m = n := by
  have nodup : ∀ {l : List (Nat × α)}, Rising l → l.Nodup := fun hl =>
    hl.imp fun {p q} hpq e => by subst e; exact Nat.lt_irrefl _ hpq
  have hperm : m.Perm n := (List.perm_ext_iff_of_nodup (nodup hm) (nodup hn)).mpr fun p =>
    ⟨fun hp => mem_of_lookup (by rw [← h]; exact lookup_of_mem hm hp),
      fun hp => mem_of_lookup (by rw [h]; exact lookup_of_mem hn hp)⟩
  refine hperm.eq_of_pairwise (le := fun p q => p.1 < q.1) ?_ hm hn
  intro p q _ _ h1 h2
  exact absurd (h1.trans h2) (Nat.lt_irrefl _)

end Sparse

/-! ### Memory -/

@[simp] theorem Mem.read_nil (a : Nat) : Mem.read [] a = Mem.unlisted a := rfl

/-- A byte reads as what was last written there, and a write leaves every other byte. -/
theorem Mem.read_write (m : Mem) (a b : Nat) (w : Byte) :
    Mem.read (Mem.write m a w) b = if b = a then w else Mem.read m b := by
  simp only [Mem.read, Mem.write]
  split
  · rename_i h
    rw [lookup_eraseKey]
    split
    · rename_i e; subst e; simp [h]
    · rfl
  · rw [lookup_insertKey]
    split <;> rfl

theorem Mem.wf_nil : Mem.wf [] := by simp [Mem.wf, Rising]

/-- A write to an address of the address space keeps the canonical form. -/
theorem Mem.wf_write {m : Mem} (h : Mem.wf m) {a : Nat} (ha : a < Config.memSize) (w : Byte) :
    Mem.wf (Mem.write m a w) := by
  simp only [Mem.write]
  split
  · exact ⟨rising_eraseKey h.1 a, fun p hp => h.2 p (mem_of_mem_eraseKey hp)⟩
  · rename_i hw
    refine ⟨rising_insertKey h.1 a w, fun p hp => ?_⟩
    rcases mem_insertKey hp with rfl | hp
    · exact ⟨ha, hw⟩
    · exact h.2 p hp

/-- What the bytes read as after a block of writes. -/
theorem Mem.read_writeBytes (m : Mem) (a b : Nat) (bytes : List Byte) :
    Mem.read (Mem.writeBytes m a bytes) b =
      if a ≤ b ∧ b < a + bytes.length then bytes.getD (b - a) 0 else Mem.read m b := by
  induction bytes generalizing m a with
  | nil => simp [Mem.writeBytes]
  | cons w rest ih =>
    simp only [Mem.writeBytes, ih, Mem.read_write, List.length_cons]
    by_cases h1 : b = a
    · subst h1
      simp
    · by_cases h2 : a + 1 ≤ b ∧ b < a + 1 + rest.length
      · have e : b - a = (b - (a + 1)) + 1 := by omega
        rw [if_pos h2, if_pos (by omega), e, List.getD_cons_succ]
      · rw [if_neg h2, if_neg h1, if_neg (by omega)]

/-- A block of writes inside the address space keeps the canonical form. -/
theorem Mem.wf_writeBytes {m : Mem} (h : Mem.wf m) {a : Nat} {bytes : List Byte}
    (ha : a + bytes.length ≤ Config.memSize) : Mem.wf (Mem.writeBytes m a bytes) := by
  induction bytes generalizing m a with
  | nil => exact h
  | cons w rest ih =>
    simp only [List.length_cons] at ha
    exact ih (Mem.wf_write h (by omega) w) (by omega)

/-- A block of writes that passes the range check keeps the canonical form. -/
theorem Mem.wf_writeBytes_inRange {m : Mem} (h : Mem.wf m) {a : Nat} {bytes : List Byte}
    (ha : Mem.inRange a bytes.length = true) : Mem.wf (Mem.writeBytes m a bytes) := by
  cases bytes with
  | nil => exact h
  | cons w rest => exact Mem.wf_writeBytes h (by simpa [Mem.inRange] using ha)

@[simp] theorem Mem.length_readBytes (m : Mem) (a n : Nat) : (Mem.readBytes m a n).length = n := by
  induction n generalizing a with
  | zero => rfl
  | succ n ih => simp [Mem.readBytes, ih]

theorem Mem.getElem_readBytes (m : Mem) (a n k : Nat) (h : k < (Mem.readBytes m a n).length) :
    (Mem.readBytes m a n)[k] = Mem.read m (a + k) := by
  induction n generalizing a k with
  | zero => simp [Mem.readBytes] at h
  | succ n ih =>
    cases k with
    | zero => rfl
    | succ k =>
      simp only [Mem.readBytes, List.getElem_cons_succ]
      rw [ih, show a + 1 + k = a + (k + 1) by omega]

/-- The range check, as the rule states it. -/
theorem Mem.inRange_iff (a n : Nat) : Mem.inRange a n = true ↔ n = 0 ∨ a + n ≤ Config.memSize := by
  simp [Mem.inRange]

@[simp] theorem length_fontData : fontData.length = 80 := rfl

/-- The memory of a reset is canonical when the blob fits. -/
theorem Mem.wf_image (memInit : Nat → Byte) {prog : List Byte} (h : prog.length ≤ Config.progMax) :
    Mem.wf (Mem.image memInit prog) := by
  simp only [Config.progMax] at h
  refine Mem.wf_writeBytes (Mem.wf_writeBytes (Mem.wf_writeBytes Mem.wf_nil ?_) ?_) ?_ <;>
    simp [Config.memSize, Config.fontBase, Config.progBase]
  omega

end Sys2Proof.Machine
end

