-- ==== Sys2Proof/Laws/PixelIndex.lean ====
section
/-! SUPPORT. The pixel-index operations, each in terms of what a cell reads afterwards, and that they keep the cell
table's canonical form. -/

namespace Sys2Proof.Machine

theorem Coord.index_inj {c d : Coord} (h : c.index = d.index) : c = d := by
  obtain ⟨⟨cx, _⟩, ⟨cy, _⟩⟩ := c
  obtain ⟨⟨dx, _⟩, ⟨dy, _⟩⟩ := d
  simp only [Coord.index] at h
  have hx : cx = dx := by omega
  have hy : cy = dy := by omega
  subst hx; subst hy; rfl

@[simp] theorem Coord.index_eq_iff {c d : Coord} : c.index = d.index ↔ c = d :=
  ⟨Coord.index_inj, fun h => h ▸ rfl⟩

theorem Coord.index_lt (c : Coord) : c.index < 2048 := by
  have := c.x.isLt; have := c.y.isLt
  simp only [Coord.index]; omega

/-- A coordinate names a cell exactly when it is on the grid. -/
theorem Coord.at?_eq_some_iff {x y : Nat} {c : Coord} : Coord.at? x y = some c ↔ c.x.val = x ∧ c.y.val = y := by
  obtain ⟨⟨cx, hx⟩, ⟨cy, hy⟩⟩ := c
  simp only [Coord.at?]
  split
  · simp [eq_comm]
  · rename_i h
    simp only [reduceCtorEq, false_iff]
    rintro ⟨rfl, rfl⟩
    exact h ⟨hx, hy⟩

theorem Coord.at?_eq_none_iff {x y : Nat} : Coord.at? x y = none ↔ ¬(x < 64 ∧ y < 32) := by
  simp only [Coord.at?]
  split <;> simp_all

@[simp] theorem Coord.at?_self (c : Coord) : Coord.at? c.x.val c.y.val = some c := Coord.at?_eq_some_iff.mpr ⟨rfl, rfl⟩

/-! ### activate -/

theorem PixelIndex.activateCell_of_some {p : PixelIndex} {c : Coord} {k : Nat} (h : p.cellAt c = some k) :
    p.activateCell c = p := by simp [PixelIndex.activateCell, h]

theorem PixelIndex.activateCell_of_none {p : PixelIndex} {c : Coord} (h : p.cellAt c = none) :
    p.activateCell c = ⟨insertKey p.cell c.index p.len, p.list ++ [c]⟩ := by simp [PixelIndex.activateCell, h]

theorem PixelIndex.cellAt_activateCell {p : PixelIndex} {c : Coord} (h : p.cellAt c = none) (d : Coord) :
    (p.activateCell c).cellAt d = if d = c then some p.len else p.cellAt d := by
  simp [PixelIndex.activateCell_of_none h, PixelIndex.cellAt, lookup_insertKey]

theorem PixelIndex.list_activateCell {p : PixelIndex} {c : Coord} (h : p.cellAt c = none) :
    (p.activateCell c).list = p.list ++ [c] := by simp [PixelIndex.activateCell_of_none h]

/-! ### deactivate -/

theorem PixelIndex.deactivateCell_of_none {p : PixelIndex} {c : Coord} (h : p.cellAt c = none) :
    p.deactivateCell c = p := by simp [PixelIndex.deactivateCell, h]

theorem PixelIndex.deactivateCell_last {p : PixelIndex} {c : Coord} {loc : Nat} (h : p.cellAt c = some loc)
    (hl : loc + 1 = p.len) : p.deactivateCell c = ⟨eraseKey p.cell c.index, p.list.dropLast⟩ := by
  simp [PixelIndex.deactivateCell, h, hl]

theorem PixelIndex.deactivateCell_swap {p : PixelIndex} {c m : Coord} {loc : Nat} (h : p.cellAt c = some loc)
    (hl : loc + 1 ≠ p.len) (hm : p.list.getLast? = some m) :
    p.deactivateCell c =
      ⟨eraseKey (insertKey p.cell m.index loc) c.index, (p.list.set loc m).dropLast⟩ := by
  simp [PixelIndex.deactivateCell, h, hl, hm]

/-- What a cell holds after a swap-to-end removal. -/
theorem PixelIndex.cellAt_deactivateCell_swap {p : PixelIndex} {c m : Coord} {loc : Nat}
    (h : p.cellAt c = some loc) (hl : loc + 1 ≠ p.len) (hm : p.list.getLast? = some m) (d : Coord) :
    (p.deactivateCell c).cellAt d = if d = c then none else if d = m then some loc else p.cellAt d := by
  simp [PixelIndex.deactivateCell_swap h hl hm, PixelIndex.cellAt, lookup_eraseKey, lookup_insertKey]

theorem PixelIndex.cellAt_deactivateCell_last {p : PixelIndex} {c : Coord} {loc : Nat}
    (h : p.cellAt c = some loc) (hl : loc + 1 = p.len) (d : Coord) :
    (p.deactivateCell c).cellAt d = if d = c then none else p.cellAt d := by
  simp [PixelIndex.deactivateCell_last h hl, PixelIndex.cellAt, lookup_eraseKey]

/-! ### clear -/

theorem lookup_eraseAll (cells : List Coord) (m : List (Nat × Nat)) (d : Coord) :
    lookup (cells.foldl (fun m c => eraseKey m c.index) m) d.index =
      if d ∈ cells then none else lookup m d.index := by
  induction cells generalizing m with
  | nil => simp
  | cons c rest ih =>
    simp only [List.foldl_cons, ih, lookup_eraseKey, List.mem_cons, Coord.index_eq_iff]
    by_cases h1 : d ∈ rest <;> by_cases h2 : d = c <;> simp [h1, h2]

@[simp] theorem PixelIndex.list_clear (p : PixelIndex) : p.clear.list = [] := rfl

theorem PixelIndex.cellAt_clear (p : PixelIndex) (d : Coord) :
    p.clear.cellAt d = if d ∈ p.list then none else p.cellAt d := by
  simp only [PixelIndex.clear, PixelIndex.cellAt, lookup_eraseAll, List.mem_reverse]

/-! ### The canonical form of the cell table -/

theorem PixelIndex.wf_empty : PixelIndex.empty.wf := by simp [PixelIndex.empty, PixelIndex.wf, Rising]

/-- `p.wf` for a table made by listing a cell's key. -/
theorem keys_insertKey {m : List (Nat × Nat)} (h : ∀ e ∈ m, e.1 < 2048) (c : Coord) (k : Nat) :
    ∀ e ∈ insertKey m c.index k, e.1 < 2048 := fun e he =>
  (mem_insertKey he).elim (fun q => by rw [q]; exact c.index_lt) (h e)

theorem PixelIndex.wf_activateCell {p : PixelIndex} (h : p.wf) (c : Coord) : (p.activateCell c).wf := by
  cases hc : p.cellAt c with
  | some k => rwa [PixelIndex.activateCell_of_some hc]
  | none =>
    rw [PixelIndex.activateCell_of_none hc]
    exact ⟨rising_insertKey h.1 _ _, keys_insertKey h.2 c _⟩

theorem PixelIndex.wf_deactivateCell {p : PixelIndex} (h : p.wf) (c : Coord) : (p.deactivateCell c).wf := by
  simp only [PixelIndex.deactivateCell]
  split
  · exact h
  · split
    · exact ⟨rising_eraseKey h.1 _, fun e he => h.2 e (mem_of_mem_eraseKey he)⟩
    · split
      · exact ⟨rising_eraseKey h.1 _, fun e he => h.2 e (mem_of_mem_eraseKey he)⟩
      · exact ⟨rising_eraseKey (rising_insertKey h.1 _ _) _,
          fun e he => keys_insertKey h.2 _ _ e (mem_of_mem_eraseKey he)⟩

theorem PixelIndex.wf_clear {p : PixelIndex} (h : p.wf) : p.clear.wf := by
  have key : ∀ (cells : List Coord) (m : List (Nat × Nat)), (Rising m ∧ ∀ e ∈ m, e.1 < 2048) →
      Rising (cells.foldl (fun m c => eraseKey m c.index) m) ∧
        ∀ e ∈ cells.foldl (fun m c => eraseKey m c.index) m, e.1 < 2048 := by
    intro cells
    induction cells with
    | nil => exact fun m hm => hm
    | cons c rest ih =>
      exact fun m hm => ih _ ⟨rising_eraseKey hm.1 _, fun e he => hm.2 e (mem_of_mem_eraseKey he)⟩
  exact key _ _ h

/-! ### Drawing -/

/-- Toggle one cell of the grid (45_draw.md R282). -/
def PixelIndex.toggleCell (p : PixelIndex) (c : Coord) : PixelIndex :=
  if p.active c then p.deactivateCell c else p.activateCell c

theorem PixelIndex.wf_toggleCell {p : PixelIndex} (h : p.wf) (c : Coord) : (p.toggleCell c).wf := by
  simp only [PixelIndex.toggleCell]
  split
  · exact PixelIndex.wf_deactivateCell h c
  · exact PixelIndex.wf_activateCell h c

/-- Drawing a cell of the grid toggles it and goes on; turning a cell off sets the collision. -/
theorem drawCells_cons (c : Coord) (rest : List (Nat × Nat)) (p : PixelIndex) (col : Bool) :
    drawCells ((c.x.val, c.y.val) :: rest) p col = drawCells rest (p.toggleCell c) (col || p.active c) := by
  simp only [drawCells, PixelIndex.isActive, PixelIndex.activate, PixelIndex.deactivate, Coord.at?_self,
    Option.map_some, PixelIndex.toggleCell]
  cases p.active c <;> simp

/-- On cells of the grid, drawing is toggling them in turn; the collision is set exactly when some cell was active
when its turn came. -/
theorem drawCells_coords (cells : List Coord) (p : PixelIndex) (col : Bool) :
    ∃ hit, drawCells (cells.map (fun c => (c.x.val, c.y.val))) p col =
      .ok (cells.foldl PixelIndex.toggleCell p, col || hit) := by
  induction cells generalizing p col with
  | nil => exact ⟨false, by simp [drawCells]⟩
  | cons c rest ih =>
    obtain ⟨hit, h⟩ := ih (p.toggleCell c) (col || p.active c)
    exact ⟨p.active c || hit, by rw [List.map_cons, drawCells_cons, h, List.foldl_cons, Bool.or_assoc]⟩

/-- Drawing keeps the canonical form. -/
theorem drawCells_wf {cells : List (Nat × Nat)} {p q : PixelIndex} {col hit : Bool} (h : p.wf)
    (hd : drawCells cells p col = .ok (q, hit)) : q.wf := by
  induction cells generalizing p col with
  | nil =>
    simp only [drawCells, Except.ok.injEq, Prod.mk.injEq] at hd
    exact hd.1 ▸ h
  | cons b rest ih =>
    obtain ⟨x, y⟩ := b
    cases hc : Coord.at? x y with
    | none => simp [drawCells, PixelIndex.isActive, hc] at hd
    | some c =>
      obtain ⟨rfl, rfl⟩ := Coord.at?_eq_some_iff.mp hc
      rw [drawCells_cons] at hd
      exact ih (PixelIndex.wf_toggleCell h c) hd

end Sys2Proof.Machine
end

