-- ==== Sys2Proof/Laws/State.lean ====
section
/-! SUPPORT. What each update of the state does to each field: true by unfolding, so that no later proof unfolds a
record update. -/

namespace Sys2Proof.Machine

/-! ### `State.setV` -/

@[simp] theorem State.setV_v (s : State) (x : Nibble) (b : Byte) : (s.setV x b).v = s.v.set x.toNat b x.isLt := rfl
@[simp] theorem State.setV_i (s : State) (x : Nibble) (b : Byte) : (s.setV x b).i = s.i := rfl
@[simp] theorem State.setV_pc (s : State) (x : Nibble) (b : Byte) : (s.setV x b).pc = s.pc := rfl
@[simp] theorem State.setV_stack (s : State) (x : Nibble) (b : Byte) : (s.setV x b).stack = s.stack := rfl
@[simp] theorem State.setV_sp (s : State) (x : Nibble) (b : Byte) : (s.setV x b).sp = s.sp := rfl
@[simp] theorem State.setV_dt (s : State) (x : Nibble) (b : Byte) : (s.setV x b).dt = s.dt := rfl
@[simp] theorem State.setV_st (s : State) (x : Nibble) (b : Byte) : (s.setV x b).st = s.st := rfl
@[simp] theorem State.setV_mem (s : State) (x : Nibble) (b : Byte) : (s.setV x b).mem = s.mem := rfl
@[simp] theorem State.setV_key (s : State) (x : Nibble) (b : Byte) : (s.setV x b).key = s.key := rfl
@[simp] theorem State.setV_rndIn (s : State) (x : Nibble) (b : Byte) : (s.setV x b).rndIn = s.rndIn := rfl
@[simp] theorem State.setV_clearRequested (s : State) (x : Nibble) (b : Byte) : (s.setV x b).clearRequested = s.clearRequested := rfl
@[simp] theorem State.setV_index (s : State) (x : Nibble) (b : Byte) : (s.setV x b).index = s.index := rfl
@[simp] theorem State.setV_status (s : State) (x : Nibble) (b : Byte) : (s.setV x b).status = s.status := rfl
@[simp] theorem State.setV_loadError (s : State) (x : Nibble) (b : Byte) : (s.setV x b).loadError = s.loadError := rfl
@[simp] theorem State.setV_out (s : State) (x : Nibble) (b : Byte) : (s.setV x b).out = s.out := rfl
@[simp] theorem State.setV_schedule (s : State) (x : Nibble) (b : Byte) : (s.setV x b).schedule = s.schedule := rfl
@[simp] theorem State.setV_turn (s : State) (x : Nibble) (b : Byte) : (s.setV x b).turn = s.turn := rfl
@[simp] theorem State.readByte_setV (s : State) (x : Nibble) (b : Byte) (n : Nat) : (s.setV x b).readByte n = s.readByte n := rfl

/-! ### `State.setI` -/

@[simp] theorem State.setI_v (s : State) (w : Word) : (s.setI w).v = s.v := rfl
@[simp] theorem State.setI_i (s : State) (w : Word) : (s.setI w).i = w := rfl
@[simp] theorem State.setI_pc (s : State) (w : Word) : (s.setI w).pc = s.pc := rfl
@[simp] theorem State.setI_stack (s : State) (w : Word) : (s.setI w).stack = s.stack := rfl
@[simp] theorem State.setI_sp (s : State) (w : Word) : (s.setI w).sp = s.sp := rfl
@[simp] theorem State.setI_dt (s : State) (w : Word) : (s.setI w).dt = s.dt := rfl
@[simp] theorem State.setI_st (s : State) (w : Word) : (s.setI w).st = s.st := rfl
@[simp] theorem State.setI_mem (s : State) (w : Word) : (s.setI w).mem = s.mem := rfl
@[simp] theorem State.setI_key (s : State) (w : Word) : (s.setI w).key = s.key := rfl
@[simp] theorem State.setI_rndIn (s : State) (w : Word) : (s.setI w).rndIn = s.rndIn := rfl
@[simp] theorem State.setI_clearRequested (s : State) (w : Word) : (s.setI w).clearRequested = s.clearRequested := rfl
@[simp] theorem State.setI_index (s : State) (w : Word) : (s.setI w).index = s.index := rfl
@[simp] theorem State.setI_status (s : State) (w : Word) : (s.setI w).status = s.status := rfl
@[simp] theorem State.setI_loadError (s : State) (w : Word) : (s.setI w).loadError = s.loadError := rfl
@[simp] theorem State.setI_out (s : State) (w : Word) : (s.setI w).out = s.out := rfl
@[simp] theorem State.setI_schedule (s : State) (w : Word) : (s.setI w).schedule = s.schedule := rfl
@[simp] theorem State.setI_turn (s : State) (w : Word) : (s.setI w).turn = s.turn := rfl
@[simp] theorem State.getV_setI (s : State) (w : Word) (z : Nibble) : (s.setI w).getV z = s.getV z := rfl
@[simp] theorem State.readByte_setI (s : State) (w : Word) (n : Nat) : (s.setI w).readByte n = s.readByte n := rfl

/-! ### `State.setPc` -/

@[simp] theorem State.setPc_v (s : State) (w : Word) : (s.setPc w).v = s.v := rfl
@[simp] theorem State.setPc_i (s : State) (w : Word) : (s.setPc w).i = s.i := rfl
@[simp] theorem State.setPc_pc (s : State) (w : Word) : (s.setPc w).pc = w := rfl
@[simp] theorem State.setPc_stack (s : State) (w : Word) : (s.setPc w).stack = s.stack := rfl
@[simp] theorem State.setPc_sp (s : State) (w : Word) : (s.setPc w).sp = s.sp := rfl
@[simp] theorem State.setPc_dt (s : State) (w : Word) : (s.setPc w).dt = s.dt := rfl
@[simp] theorem State.setPc_st (s : State) (w : Word) : (s.setPc w).st = s.st := rfl
@[simp] theorem State.setPc_mem (s : State) (w : Word) : (s.setPc w).mem = s.mem := rfl
@[simp] theorem State.setPc_key (s : State) (w : Word) : (s.setPc w).key = s.key := rfl
@[simp] theorem State.setPc_rndIn (s : State) (w : Word) : (s.setPc w).rndIn = s.rndIn := rfl
@[simp] theorem State.setPc_clearRequested (s : State) (w : Word) : (s.setPc w).clearRequested = s.clearRequested := rfl
@[simp] theorem State.setPc_index (s : State) (w : Word) : (s.setPc w).index = s.index := rfl
@[simp] theorem State.setPc_status (s : State) (w : Word) : (s.setPc w).status = s.status := rfl
@[simp] theorem State.setPc_loadError (s : State) (w : Word) : (s.setPc w).loadError = s.loadError := rfl
@[simp] theorem State.setPc_out (s : State) (w : Word) : (s.setPc w).out = s.out := rfl
@[simp] theorem State.setPc_schedule (s : State) (w : Word) : (s.setPc w).schedule = s.schedule := rfl
@[simp] theorem State.setPc_turn (s : State) (w : Word) : (s.setPc w).turn = s.turn := rfl
@[simp] theorem State.getV_setPc (s : State) (w : Word) (z : Nibble) : (s.setPc w).getV z = s.getV z := rfl
@[simp] theorem State.readByte_setPc (s : State) (w : Word) (n : Nat) : (s.setPc w).readByte n = s.readByte n := rfl

/-! ### `State.setDt` -/

@[simp] theorem State.setDt_v (s : State) (b : Byte) : (s.setDt b).v = s.v := rfl
@[simp] theorem State.setDt_i (s : State) (b : Byte) : (s.setDt b).i = s.i := rfl
@[simp] theorem State.setDt_pc (s : State) (b : Byte) : (s.setDt b).pc = s.pc := rfl
@[simp] theorem State.setDt_stack (s : State) (b : Byte) : (s.setDt b).stack = s.stack := rfl
@[simp] theorem State.setDt_sp (s : State) (b : Byte) : (s.setDt b).sp = s.sp := rfl
@[simp] theorem State.setDt_dt (s : State) (b : Byte) : (s.setDt b).dt = b := rfl
@[simp] theorem State.setDt_st (s : State) (b : Byte) : (s.setDt b).st = s.st := rfl
@[simp] theorem State.setDt_mem (s : State) (b : Byte) : (s.setDt b).mem = s.mem := rfl
@[simp] theorem State.setDt_key (s : State) (b : Byte) : (s.setDt b).key = s.key := rfl
@[simp] theorem State.setDt_rndIn (s : State) (b : Byte) : (s.setDt b).rndIn = s.rndIn := rfl
@[simp] theorem State.setDt_clearRequested (s : State) (b : Byte) : (s.setDt b).clearRequested = s.clearRequested := rfl
@[simp] theorem State.setDt_index (s : State) (b : Byte) : (s.setDt b).index = s.index := rfl
@[simp] theorem State.setDt_status (s : State) (b : Byte) : (s.setDt b).status = s.status := rfl
@[simp] theorem State.setDt_loadError (s : State) (b : Byte) : (s.setDt b).loadError = s.loadError := rfl
@[simp] theorem State.setDt_out (s : State) (b : Byte) : (s.setDt b).out = s.out := rfl
@[simp] theorem State.setDt_schedule (s : State) (b : Byte) : (s.setDt b).schedule = s.schedule := rfl
@[simp] theorem State.setDt_turn (s : State) (b : Byte) : (s.setDt b).turn = s.turn := rfl
@[simp] theorem State.getV_setDt (s : State) (b : Byte) (z : Nibble) : (s.setDt b).getV z = s.getV z := rfl
@[simp] theorem State.readByte_setDt (s : State) (b : Byte) (n : Nat) : (s.setDt b).readByte n = s.readByte n := rfl

/-! ### `State.setSt` -/

@[simp] theorem State.setSt_v (s : State) (b : Byte) : (s.setSt b).v = s.v := rfl
@[simp] theorem State.setSt_i (s : State) (b : Byte) : (s.setSt b).i = s.i := rfl
@[simp] theorem State.setSt_pc (s : State) (b : Byte) : (s.setSt b).pc = s.pc := rfl
@[simp] theorem State.setSt_stack (s : State) (b : Byte) : (s.setSt b).stack = s.stack := rfl
@[simp] theorem State.setSt_sp (s : State) (b : Byte) : (s.setSt b).sp = s.sp := rfl
@[simp] theorem State.setSt_dt (s : State) (b : Byte) : (s.setSt b).dt = s.dt := rfl
@[simp] theorem State.setSt_st (s : State) (b : Byte) : (s.setSt b).st = b := rfl
@[simp] theorem State.setSt_mem (s : State) (b : Byte) : (s.setSt b).mem = s.mem := rfl
@[simp] theorem State.setSt_key (s : State) (b : Byte) : (s.setSt b).key = s.key := rfl
@[simp] theorem State.setSt_rndIn (s : State) (b : Byte) : (s.setSt b).rndIn = s.rndIn := rfl
@[simp] theorem State.setSt_clearRequested (s : State) (b : Byte) : (s.setSt b).clearRequested = s.clearRequested := rfl
@[simp] theorem State.setSt_index (s : State) (b : Byte) : (s.setSt b).index = s.index := rfl
@[simp] theorem State.setSt_status (s : State) (b : Byte) : (s.setSt b).status = s.status := rfl
@[simp] theorem State.setSt_loadError (s : State) (b : Byte) : (s.setSt b).loadError = s.loadError := rfl
@[simp] theorem State.setSt_out (s : State) (b : Byte) : (s.setSt b).out = s.out := rfl
@[simp] theorem State.setSt_schedule (s : State) (b : Byte) : (s.setSt b).schedule = s.schedule := rfl
@[simp] theorem State.setSt_turn (s : State) (b : Byte) : (s.setSt b).turn = s.turn := rfl
@[simp] theorem State.getV_setSt (s : State) (b : Byte) (z : Nibble) : (s.setSt b).getV z = s.getV z := rfl
@[simp] theorem State.readByte_setSt (s : State) (b : Byte) (n : Nat) : (s.setSt b).readByte n = s.readByte n := rfl

/-! ### `State.setMem` -/

@[simp] theorem State.setMem_v (s : State) (m : Mem) : (s.setMem m).v = s.v := rfl
@[simp] theorem State.setMem_i (s : State) (m : Mem) : (s.setMem m).i = s.i := rfl
@[simp] theorem State.setMem_pc (s : State) (m : Mem) : (s.setMem m).pc = s.pc := rfl
@[simp] theorem State.setMem_stack (s : State) (m : Mem) : (s.setMem m).stack = s.stack := rfl
@[simp] theorem State.setMem_sp (s : State) (m : Mem) : (s.setMem m).sp = s.sp := rfl
@[simp] theorem State.setMem_dt (s : State) (m : Mem) : (s.setMem m).dt = s.dt := rfl
@[simp] theorem State.setMem_st (s : State) (m : Mem) : (s.setMem m).st = s.st := rfl
@[simp] theorem State.setMem_mem (s : State) (m : Mem) : (s.setMem m).mem = m := rfl
@[simp] theorem State.setMem_key (s : State) (m : Mem) : (s.setMem m).key = s.key := rfl
@[simp] theorem State.setMem_rndIn (s : State) (m : Mem) : (s.setMem m).rndIn = s.rndIn := rfl
@[simp] theorem State.setMem_clearRequested (s : State) (m : Mem) : (s.setMem m).clearRequested = s.clearRequested := rfl
@[simp] theorem State.setMem_index (s : State) (m : Mem) : (s.setMem m).index = s.index := rfl
@[simp] theorem State.setMem_status (s : State) (m : Mem) : (s.setMem m).status = s.status := rfl
@[simp] theorem State.setMem_loadError (s : State) (m : Mem) : (s.setMem m).loadError = s.loadError := rfl
@[simp] theorem State.setMem_out (s : State) (m : Mem) : (s.setMem m).out = s.out := rfl
@[simp] theorem State.setMem_schedule (s : State) (m : Mem) : (s.setMem m).schedule = s.schedule := rfl
@[simp] theorem State.setMem_turn (s : State) (m : Mem) : (s.setMem m).turn = s.turn := rfl
@[simp] theorem State.getV_setMem (s : State) (m : Mem) (z : Nibble) : (s.setMem m).getV z = s.getV z := rfl

/-! ### `State.setIndex` -/

@[simp] theorem State.setIndex_v (s : State) (p : PixelIndex) : (s.setIndex p).v = s.v := rfl
@[simp] theorem State.setIndex_i (s : State) (p : PixelIndex) : (s.setIndex p).i = s.i := rfl
@[simp] theorem State.setIndex_pc (s : State) (p : PixelIndex) : (s.setIndex p).pc = s.pc := rfl
@[simp] theorem State.setIndex_stack (s : State) (p : PixelIndex) : (s.setIndex p).stack = s.stack := rfl
@[simp] theorem State.setIndex_sp (s : State) (p : PixelIndex) : (s.setIndex p).sp = s.sp := rfl
@[simp] theorem State.setIndex_dt (s : State) (p : PixelIndex) : (s.setIndex p).dt = s.dt := rfl
@[simp] theorem State.setIndex_st (s : State) (p : PixelIndex) : (s.setIndex p).st = s.st := rfl
@[simp] theorem State.setIndex_mem (s : State) (p : PixelIndex) : (s.setIndex p).mem = s.mem := rfl
@[simp] theorem State.setIndex_key (s : State) (p : PixelIndex) : (s.setIndex p).key = s.key := rfl
@[simp] theorem State.setIndex_rndIn (s : State) (p : PixelIndex) : (s.setIndex p).rndIn = s.rndIn := rfl
@[simp] theorem State.setIndex_clearRequested (s : State) (p : PixelIndex) : (s.setIndex p).clearRequested = s.clearRequested := rfl
@[simp] theorem State.setIndex_index (s : State) (p : PixelIndex) : (s.setIndex p).index = p := rfl
@[simp] theorem State.setIndex_status (s : State) (p : PixelIndex) : (s.setIndex p).status = s.status := rfl
@[simp] theorem State.setIndex_loadError (s : State) (p : PixelIndex) : (s.setIndex p).loadError = s.loadError := rfl
@[simp] theorem State.setIndex_out (s : State) (p : PixelIndex) : (s.setIndex p).out = s.out := rfl
@[simp] theorem State.setIndex_schedule (s : State) (p : PixelIndex) : (s.setIndex p).schedule = s.schedule := rfl
@[simp] theorem State.setIndex_turn (s : State) (p : PixelIndex) : (s.setIndex p).turn = s.turn := rfl
@[simp] theorem State.getV_setIndex (s : State) (p : PixelIndex) (z : Nibble) : (s.setIndex p).getV z = s.getV z := rfl
@[simp] theorem State.readByte_setIndex (s : State) (p : PixelIndex) (n : Nat) : (s.setIndex p).readByte n = s.readByte n := rfl

/-! ### `State.setClear` -/

@[simp] theorem State.setClear_v (s : State) (b : Bool) : (s.setClear b).v = s.v := rfl
@[simp] theorem State.setClear_i (s : State) (b : Bool) : (s.setClear b).i = s.i := rfl
@[simp] theorem State.setClear_pc (s : State) (b : Bool) : (s.setClear b).pc = s.pc := rfl
@[simp] theorem State.setClear_stack (s : State) (b : Bool) : (s.setClear b).stack = s.stack := rfl
@[simp] theorem State.setClear_sp (s : State) (b : Bool) : (s.setClear b).sp = s.sp := rfl
@[simp] theorem State.setClear_dt (s : State) (b : Bool) : (s.setClear b).dt = s.dt := rfl
@[simp] theorem State.setClear_st (s : State) (b : Bool) : (s.setClear b).st = s.st := rfl
@[simp] theorem State.setClear_mem (s : State) (b : Bool) : (s.setClear b).mem = s.mem := rfl
@[simp] theorem State.setClear_key (s : State) (b : Bool) : (s.setClear b).key = s.key := rfl
@[simp] theorem State.setClear_rndIn (s : State) (b : Bool) : (s.setClear b).rndIn = s.rndIn := rfl
@[simp] theorem State.setClear_clearRequested (s : State) (b : Bool) : (s.setClear b).clearRequested = b := rfl
@[simp] theorem State.setClear_index (s : State) (b : Bool) : (s.setClear b).index = s.index := rfl
@[simp] theorem State.setClear_status (s : State) (b : Bool) : (s.setClear b).status = s.status := rfl
@[simp] theorem State.setClear_loadError (s : State) (b : Bool) : (s.setClear b).loadError = s.loadError := rfl
@[simp] theorem State.setClear_out (s : State) (b : Bool) : (s.setClear b).out = s.out := rfl
@[simp] theorem State.setClear_schedule (s : State) (b : Bool) : (s.setClear b).schedule = s.schedule := rfl
@[simp] theorem State.setClear_turn (s : State) (b : Bool) : (s.setClear b).turn = s.turn := rfl
@[simp] theorem State.getV_setClear (s : State) (b : Bool) (z : Nibble) : (s.setClear b).getV z = s.getV z := rfl
@[simp] theorem State.readByte_setClear (s : State) (b : Bool) (n : Nat) : (s.setClear b).readByte n = s.readByte n := rfl

/-! ### `State.advance` -/

@[simp] theorem State.advance_v (s : State) : (s.advance).v = s.v := rfl
@[simp] theorem State.advance_i (s : State) : (s.advance).i = s.i := rfl
@[simp] theorem State.advance_pc (s : State) : (s.advance).pc = s.pc + 2 := rfl
@[simp] theorem State.advance_stack (s : State) : (s.advance).stack = s.stack := rfl
@[simp] theorem State.advance_sp (s : State) : (s.advance).sp = s.sp := rfl
@[simp] theorem State.advance_dt (s : State) : (s.advance).dt = s.dt := rfl
@[simp] theorem State.advance_st (s : State) : (s.advance).st = s.st := rfl
@[simp] theorem State.advance_mem (s : State) : (s.advance).mem = s.mem := rfl
@[simp] theorem State.advance_key (s : State) : (s.advance).key = s.key := rfl
@[simp] theorem State.advance_rndIn (s : State) : (s.advance).rndIn = s.rndIn := rfl
@[simp] theorem State.advance_clearRequested (s : State) : (s.advance).clearRequested = s.clearRequested := rfl
@[simp] theorem State.advance_index (s : State) : (s.advance).index = s.index := rfl
@[simp] theorem State.advance_status (s : State) : (s.advance).status = s.status := rfl
@[simp] theorem State.advance_loadError (s : State) : (s.advance).loadError = s.loadError := rfl
@[simp] theorem State.advance_out (s : State) : (s.advance).out = s.out := rfl
@[simp] theorem State.advance_schedule (s : State) : (s.advance).schedule = s.schedule := rfl
@[simp] theorem State.advance_turn (s : State) : (s.advance).turn = s.turn := rfl
@[simp] theorem State.getV_advance (s : State) (z : Nibble) : (s.advance).getV z = s.getV z := rfl
@[simp] theorem State.readByte_advance (s : State) (n : Nat) : (s.advance).readByte n = s.readByte n := rfl

/-! ### `State.skipIf` -/

@[simp] theorem State.skipIf_v (s : State) (c : Bool) : (s.skipIf c).v = s.v := rfl
@[simp] theorem State.skipIf_i (s : State) (c : Bool) : (s.skipIf c).i = s.i := rfl
@[simp] theorem State.skipIf_pc (s : State) (c : Bool) : (s.skipIf c).pc = if c then s.pc + 4 else s.pc + 2 := rfl
@[simp] theorem State.skipIf_stack (s : State) (c : Bool) : (s.skipIf c).stack = s.stack := rfl
@[simp] theorem State.skipIf_sp (s : State) (c : Bool) : (s.skipIf c).sp = s.sp := rfl
@[simp] theorem State.skipIf_dt (s : State) (c : Bool) : (s.skipIf c).dt = s.dt := rfl
@[simp] theorem State.skipIf_st (s : State) (c : Bool) : (s.skipIf c).st = s.st := rfl
@[simp] theorem State.skipIf_mem (s : State) (c : Bool) : (s.skipIf c).mem = s.mem := rfl
@[simp] theorem State.skipIf_key (s : State) (c : Bool) : (s.skipIf c).key = s.key := rfl
@[simp] theorem State.skipIf_rndIn (s : State) (c : Bool) : (s.skipIf c).rndIn = s.rndIn := rfl
@[simp] theorem State.skipIf_clearRequested (s : State) (c : Bool) : (s.skipIf c).clearRequested = s.clearRequested := rfl
@[simp] theorem State.skipIf_index (s : State) (c : Bool) : (s.skipIf c).index = s.index := rfl
@[simp] theorem State.skipIf_status (s : State) (c : Bool) : (s.skipIf c).status = s.status := rfl
@[simp] theorem State.skipIf_loadError (s : State) (c : Bool) : (s.skipIf c).loadError = s.loadError := rfl
@[simp] theorem State.skipIf_out (s : State) (c : Bool) : (s.skipIf c).out = s.out := rfl
@[simp] theorem State.skipIf_schedule (s : State) (c : Bool) : (s.skipIf c).schedule = s.schedule := rfl
@[simp] theorem State.skipIf_turn (s : State) (c : Bool) : (s.skipIf c).turn = s.turn := rfl
@[simp] theorem State.getV_skipIf (s : State) (c : Bool) (z : Nibble) : (s.skipIf c).getV z = s.getV z := rfl
@[simp] theorem State.readByte_skipIf (s : State) (c : Bool) (n : Nat) : (s.skipIf c).readByte n = s.readByte n := rfl

/-! ### `State.raise` -/

@[simp] theorem State.raise_v (s : State) (c : Cause) (op info : Word) : (s.raise c op info).v = s.v := rfl
@[simp] theorem State.raise_i (s : State) (c : Cause) (op info : Word) : (s.raise c op info).i = s.i := rfl
@[simp] theorem State.raise_pc (s : State) (c : Cause) (op info : Word) : (s.raise c op info).pc = s.pc := rfl
@[simp] theorem State.raise_stack (s : State) (c : Cause) (op info : Word) : (s.raise c op info).stack = s.stack := rfl
@[simp] theorem State.raise_sp (s : State) (c : Cause) (op info : Word) : (s.raise c op info).sp = s.sp := rfl
@[simp] theorem State.raise_dt (s : State) (c : Cause) (op info : Word) : (s.raise c op info).dt = s.dt := rfl
@[simp] theorem State.raise_st (s : State) (c : Cause) (op info : Word) : (s.raise c op info).st = s.st := rfl
@[simp] theorem State.raise_mem (s : State) (c : Cause) (op info : Word) : (s.raise c op info).mem = s.mem := rfl
@[simp] theorem State.raise_key (s : State) (c : Cause) (op info : Word) : (s.raise c op info).key = s.key := rfl
@[simp] theorem State.raise_rndIn (s : State) (c : Cause) (op info : Word) : (s.raise c op info).rndIn = s.rndIn := rfl
@[simp] theorem State.raise_clearRequested (s : State) (c : Cause) (op info : Word) : (s.raise c op info).clearRequested = s.clearRequested := rfl
@[simp] theorem State.raise_index (s : State) (c : Cause) (op info : Word) : (s.raise c op info).index = s.index := rfl
@[simp] theorem State.raise_status (s : State) (c : Cause) (op info : Word) : (s.raise c op info).status = ⟨true, c.code, s.pc, op, info⟩ := rfl
@[simp] theorem State.raise_loadError (s : State) (c : Cause) (op info : Word) : (s.raise c op info).loadError = s.loadError := rfl
@[simp] theorem State.raise_out (s : State) (c : Cause) (op info : Word) : (s.raise c op info).out = Outputs.quiet := rfl
@[simp] theorem State.raise_schedule (s : State) (c : Cause) (op info : Word) : (s.raise c op info).schedule = s.schedule := rfl
@[simp] theorem State.raise_turn (s : State) (c : Cause) (op info : Word) : (s.raise c op info).turn = s.turn := rfl
@[simp] theorem State.getV_raise (s : State) (c : Cause) (op info : Word) (z : Nibble) : (s.raise c op info).getV z = s.getV z := rfl
@[simp] theorem State.readByte_raise (s : State) (c : Cause) (op info : Word) (n : Nat) : (s.raise c op info).readByte n = s.readByte n := rfl

/-! ### `State.quiet` -/

@[simp] theorem State.quiet_v (s : State) : (s.quiet).v = s.v := rfl
@[simp] theorem State.quiet_i (s : State) : (s.quiet).i = s.i := rfl
@[simp] theorem State.quiet_pc (s : State) : (s.quiet).pc = s.pc := rfl
@[simp] theorem State.quiet_stack (s : State) : (s.quiet).stack = s.stack := rfl
@[simp] theorem State.quiet_sp (s : State) : (s.quiet).sp = s.sp := rfl
@[simp] theorem State.quiet_dt (s : State) : (s.quiet).dt = s.dt := rfl
@[simp] theorem State.quiet_st (s : State) : (s.quiet).st = s.st := rfl
@[simp] theorem State.quiet_mem (s : State) : (s.quiet).mem = s.mem := rfl
@[simp] theorem State.quiet_key (s : State) : (s.quiet).key = s.key := rfl
@[simp] theorem State.quiet_rndIn (s : State) : (s.quiet).rndIn = s.rndIn := rfl
@[simp] theorem State.quiet_clearRequested (s : State) : (s.quiet).clearRequested = s.clearRequested := rfl
@[simp] theorem State.quiet_index (s : State) : (s.quiet).index = s.index := rfl
@[simp] theorem State.quiet_status (s : State) : (s.quiet).status = s.status := rfl
@[simp] theorem State.quiet_loadError (s : State) : (s.quiet).loadError = s.loadError := rfl
@[simp] theorem State.quiet_out (s : State) : (s.quiet).out = Outputs.quiet := rfl
@[simp] theorem State.quiet_schedule (s : State) : (s.quiet).schedule = s.schedule := rfl
@[simp] theorem State.quiet_turn (s : State) : (s.quiet).turn = s.turn := rfl
@[simp] theorem State.getV_quiet (s : State) (z : Nibble) : (s.quiet).getV z = s.getV z := rfl
@[simp] theorem State.readByte_quiet (s : State) (n : Nat) : (s.quiet).readByte n = s.readByte n := rfl

/-! ### `State.latch` -/

@[simp] theorem State.latch_v (s : State) (k : BitVec 16) (r : Byte) : (s.latch k r).v = s.v := rfl
@[simp] theorem State.latch_i (s : State) (k : BitVec 16) (r : Byte) : (s.latch k r).i = s.i := rfl
@[simp] theorem State.latch_pc (s : State) (k : BitVec 16) (r : Byte) : (s.latch k r).pc = s.pc := rfl
@[simp] theorem State.latch_stack (s : State) (k : BitVec 16) (r : Byte) : (s.latch k r).stack = s.stack := rfl
@[simp] theorem State.latch_sp (s : State) (k : BitVec 16) (r : Byte) : (s.latch k r).sp = s.sp := rfl
@[simp] theorem State.latch_dt (s : State) (k : BitVec 16) (r : Byte) : (s.latch k r).dt = s.dt := rfl
@[simp] theorem State.latch_st (s : State) (k : BitVec 16) (r : Byte) : (s.latch k r).st = s.st := rfl
@[simp] theorem State.latch_mem (s : State) (k : BitVec 16) (r : Byte) : (s.latch k r).mem = s.mem := rfl
@[simp] theorem State.latch_key (s : State) (k : BitVec 16) (r : Byte) : (s.latch k r).key = k := rfl
@[simp] theorem State.latch_rndIn (s : State) (k : BitVec 16) (r : Byte) : (s.latch k r).rndIn = r := rfl
@[simp] theorem State.latch_clearRequested (s : State) (k : BitVec 16) (r : Byte) : (s.latch k r).clearRequested = s.clearRequested := rfl
@[simp] theorem State.latch_index (s : State) (k : BitVec 16) (r : Byte) : (s.latch k r).index = s.index := rfl
@[simp] theorem State.latch_status (s : State) (k : BitVec 16) (r : Byte) : (s.latch k r).status = s.status := rfl
@[simp] theorem State.latch_loadError (s : State) (k : BitVec 16) (r : Byte) : (s.latch k r).loadError = s.loadError := rfl
@[simp] theorem State.latch_out (s : State) (k : BitVec 16) (r : Byte) : (s.latch k r).out = s.out := rfl
@[simp] theorem State.latch_schedule (s : State) (k : BitVec 16) (r : Byte) : (s.latch k r).schedule = s.schedule := rfl
@[simp] theorem State.latch_turn (s : State) (k : BitVec 16) (r : Byte) : (s.latch k r).turn = s.turn := rfl
@[simp] theorem State.getV_latch (s : State) (k : BitVec 16) (r : Byte) (z : Nibble) : (s.latch k r).getV z = s.getV z := rfl
@[simp] theorem State.readByte_latch (s : State) (k : BitVec 16) (r : Byte) (n : Nat) : (s.latch k r).readByte n = s.readByte n := rfl

/-! ### `State.timerStep` -/

@[simp] theorem State.timerStep_v (s : State) : (s.timerStep).v = s.v := rfl
@[simp] theorem State.timerStep_i (s : State) : (s.timerStep).i = s.i := rfl
@[simp] theorem State.timerStep_pc (s : State) : (s.timerStep).pc = s.pc := rfl
@[simp] theorem State.timerStep_stack (s : State) : (s.timerStep).stack = s.stack := rfl
@[simp] theorem State.timerStep_sp (s : State) : (s.timerStep).sp = s.sp := rfl
@[simp] theorem State.timerStep_dt (s : State) : (s.timerStep).dt = countDown s.dt := rfl
@[simp] theorem State.timerStep_st (s : State) : (s.timerStep).st = countDown s.st := rfl
@[simp] theorem State.timerStep_mem (s : State) : (s.timerStep).mem = s.mem := rfl
@[simp] theorem State.timerStep_key (s : State) : (s.timerStep).key = s.key := rfl
@[simp] theorem State.timerStep_rndIn (s : State) : (s.timerStep).rndIn = s.rndIn := rfl
@[simp] theorem State.timerStep_clearRequested (s : State) : (s.timerStep).clearRequested = s.clearRequested := rfl
@[simp] theorem State.timerStep_index (s : State) : (s.timerStep).index = s.index := rfl
@[simp] theorem State.timerStep_status (s : State) : (s.timerStep).status = s.status := rfl
@[simp] theorem State.timerStep_loadError (s : State) : (s.timerStep).loadError = s.loadError := rfl
@[simp] theorem State.timerStep_out (s : State) : (s.timerStep).out = { s.out with tone := s.st == 1 } := rfl
@[simp] theorem State.timerStep_schedule (s : State) : (s.timerStep).schedule = s.schedule := rfl
@[simp] theorem State.timerStep_turn (s : State) : (s.timerStep).turn = s.turn := rfl
@[simp] theorem State.getV_timerStep (s : State) (z : Nibble) : (s.timerStep).getV z = s.getV z := rfl
@[simp] theorem State.readByte_timerStep (s : State) (n : Nat) : (s.timerStep).readByte n = s.readByte n := rfl

/-! ### `State.takeTurn` -/

@[simp] theorem State.takeTurn_v (s : State) : (s.takeTurn).v = s.v := rfl
@[simp] theorem State.takeTurn_i (s : State) : (s.takeTurn).i = s.i := rfl
@[simp] theorem State.takeTurn_pc (s : State) : (s.takeTurn).pc = s.pc := rfl
@[simp] theorem State.takeTurn_stack (s : State) : (s.takeTurn).stack = s.stack := rfl
@[simp] theorem State.takeTurn_sp (s : State) : (s.takeTurn).sp = s.sp := rfl
@[simp] theorem State.takeTurn_dt (s : State) : (s.takeTurn).dt = s.dt := rfl
@[simp] theorem State.takeTurn_st (s : State) : (s.takeTurn).st = s.st := rfl
@[simp] theorem State.takeTurn_mem (s : State) : (s.takeTurn).mem = s.mem := rfl
@[simp] theorem State.takeTurn_key (s : State) : (s.takeTurn).key = s.key := rfl
@[simp] theorem State.takeTurn_rndIn (s : State) : (s.takeTurn).rndIn = s.rndIn := rfl
@[simp] theorem State.takeTurn_clearRequested (s : State) : (s.takeTurn).clearRequested = s.clearRequested := rfl
@[simp] theorem State.takeTurn_index (s : State) : (s.takeTurn).index = s.index := rfl
@[simp] theorem State.takeTurn_status (s : State) : (s.takeTurn).status = s.status := rfl
@[simp] theorem State.takeTurn_loadError (s : State) : (s.takeTurn).loadError = s.loadError := rfl
@[simp] theorem State.takeTurn_out (s : State) : (s.takeTurn).out = s.out := rfl
@[simp] theorem State.takeTurn_schedule (s : State) : (s.takeTurn).schedule = s.schedule.tail := rfl
@[simp] theorem State.takeTurn_turn (s : State) : (s.takeTurn).turn = s.turn + 1 := rfl
@[simp] theorem State.getV_takeTurn (s : State) (z : Nibble) : (s.takeTurn).getV z = s.getV z := rfl
@[simp] theorem State.readByte_takeTurn (s : State) (n : Nat) : (s.takeTurn).readByte n = s.readByte n := rfl

/-! ### `State.ackIf` -/

@[simp] theorem State.ackIf_v (s : State) (b : Bool) : (s.ackIf b).v = s.v := rfl
@[simp] theorem State.ackIf_i (s : State) (b : Bool) : (s.ackIf b).i = s.i := rfl
@[simp] theorem State.ackIf_pc (s : State) (b : Bool) : (s.ackIf b).pc = s.pc := rfl
@[simp] theorem State.ackIf_stack (s : State) (b : Bool) : (s.ackIf b).stack = s.stack := rfl
@[simp] theorem State.ackIf_sp (s : State) (b : Bool) : (s.ackIf b).sp = s.sp := rfl
@[simp] theorem State.ackIf_dt (s : State) (b : Bool) : (s.ackIf b).dt = s.dt := rfl
@[simp] theorem State.ackIf_st (s : State) (b : Bool) : (s.ackIf b).st = s.st := rfl
@[simp] theorem State.ackIf_mem (s : State) (b : Bool) : (s.ackIf b).mem = s.mem := rfl
@[simp] theorem State.ackIf_key (s : State) (b : Bool) : (s.ackIf b).key = s.key := rfl
@[simp] theorem State.ackIf_rndIn (s : State) (b : Bool) : (s.ackIf b).rndIn = s.rndIn := rfl
@[simp] theorem State.ackIf_clearRequested (s : State) (b : Bool) : (s.ackIf b).clearRequested = (s.clearRequested && !b) := rfl
@[simp] theorem State.ackIf_index (s : State) (b : Bool) : (s.ackIf b).index = s.index := rfl
@[simp] theorem State.ackIf_status (s : State) (b : Bool) : (s.ackIf b).status = s.status := rfl
@[simp] theorem State.ackIf_loadError (s : State) (b : Bool) : (s.ackIf b).loadError = s.loadError := rfl
@[simp] theorem State.ackIf_out (s : State) (b : Bool) : (s.ackIf b).out = s.out := rfl
@[simp] theorem State.ackIf_schedule (s : State) (b : Bool) : (s.ackIf b).schedule = s.schedule := rfl
@[simp] theorem State.ackIf_turn (s : State) (b : Bool) : (s.ackIf b).turn = s.turn := rfl
@[simp] theorem State.getV_ackIf (s : State) (b : Bool) (z : Nibble) : (s.ackIf b).getV z = s.getV z := rfl
@[simp] theorem State.readByte_ackIf (s : State) (b : Bool) (n : Nat) : (s.ackIf b).readByte n = s.readByte n := rfl

/-! ### `State.unknownOpcode` -/

@[simp] theorem State.unknownOpcode_v (s : State) (op : Word) : (s.unknownOpcode op).v = s.v := rfl
@[simp] theorem State.unknownOpcode_i (s : State) (op : Word) : (s.unknownOpcode op).i = s.i := rfl
@[simp] theorem State.unknownOpcode_pc (s : State) (op : Word) : (s.unknownOpcode op).pc = s.pc + 2 := rfl
@[simp] theorem State.unknownOpcode_stack (s : State) (op : Word) : (s.unknownOpcode op).stack = s.stack := rfl
@[simp] theorem State.unknownOpcode_sp (s : State) (op : Word) : (s.unknownOpcode op).sp = s.sp := rfl
@[simp] theorem State.unknownOpcode_dt (s : State) (op : Word) : (s.unknownOpcode op).dt = s.dt := rfl
@[simp] theorem State.unknownOpcode_st (s : State) (op : Word) : (s.unknownOpcode op).st = s.st := rfl
@[simp] theorem State.unknownOpcode_mem (s : State) (op : Word) : (s.unknownOpcode op).mem = s.mem := rfl
@[simp] theorem State.unknownOpcode_key (s : State) (op : Word) : (s.unknownOpcode op).key = s.key := rfl
@[simp] theorem State.unknownOpcode_rndIn (s : State) (op : Word) : (s.unknownOpcode op).rndIn = s.rndIn := rfl
@[simp] theorem State.unknownOpcode_clearRequested (s : State) (op : Word) : (s.unknownOpcode op).clearRequested = s.clearRequested := rfl
@[simp] theorem State.unknownOpcode_index (s : State) (op : Word) : (s.unknownOpcode op).index = s.index := rfl
@[simp] theorem State.unknownOpcode_status (s : State) (op : Word) : (s.unknownOpcode op).status = s.status := rfl
@[simp] theorem State.unknownOpcode_loadError (s : State) (op : Word) : (s.unknownOpcode op).loadError = s.loadError := rfl
@[simp] theorem State.unknownOpcode_out (s : State) (op : Word) : (s.unknownOpcode op).out = { s.out with diagValid := true, diagCode := 1, diagOp := op } := rfl
@[simp] theorem State.unknownOpcode_schedule (s : State) (op : Word) : (s.unknownOpcode op).schedule = s.schedule := rfl
@[simp] theorem State.unknownOpcode_turn (s : State) (op : Word) : (s.unknownOpcode op).turn = s.turn := rfl
@[simp] theorem State.getV_unknownOpcode (s : State) (op : Word) (z : Nibble) : (s.unknownOpcode op).getV z = s.getV z := rfl
@[simp] theorem State.readByte_unknownOpcode (s : State) (op : Word) (n : Nat) : (s.unknownOpcode op).readByte n = s.readByte n := rfl

/-! ### `State.setFlag` -/

@[simp] theorem State.setFlag_i (s : State) (b : Bool) : (s.setFlag b).i = s.i := rfl
@[simp] theorem State.setFlag_pc (s : State) (b : Bool) : (s.setFlag b).pc = s.pc := rfl
@[simp] theorem State.setFlag_stack (s : State) (b : Bool) : (s.setFlag b).stack = s.stack := rfl
@[simp] theorem State.setFlag_sp (s : State) (b : Bool) : (s.setFlag b).sp = s.sp := rfl
@[simp] theorem State.setFlag_dt (s : State) (b : Bool) : (s.setFlag b).dt = s.dt := rfl
@[simp] theorem State.setFlag_st (s : State) (b : Bool) : (s.setFlag b).st = s.st := rfl
@[simp] theorem State.setFlag_mem (s : State) (b : Bool) : (s.setFlag b).mem = s.mem := rfl
@[simp] theorem State.setFlag_key (s : State) (b : Bool) : (s.setFlag b).key = s.key := rfl
@[simp] theorem State.setFlag_rndIn (s : State) (b : Bool) : (s.setFlag b).rndIn = s.rndIn := rfl
@[simp] theorem State.setFlag_clearRequested (s : State) (b : Bool) : (s.setFlag b).clearRequested = s.clearRequested := rfl
@[simp] theorem State.setFlag_index (s : State) (b : Bool) : (s.setFlag b).index = s.index := rfl
@[simp] theorem State.setFlag_status (s : State) (b : Bool) : (s.setFlag b).status = s.status := rfl
@[simp] theorem State.setFlag_loadError (s : State) (b : Bool) : (s.setFlag b).loadError = s.loadError := rfl
@[simp] theorem State.setFlag_out (s : State) (b : Bool) : (s.setFlag b).out = s.out := rfl
@[simp] theorem State.setFlag_schedule (s : State) (b : Bool) : (s.setFlag b).schedule = s.schedule := rfl
@[simp] theorem State.setFlag_turn (s : State) (b : Bool) : (s.setFlag b).turn = s.turn := rfl
@[simp] theorem State.readByte_setFlag (s : State) (b : Bool) (n : Nat) : (s.setFlag b).readByte n = s.readByte n := rfl

/-! ### `State.setResultFlag` -/

@[simp] theorem State.setResultFlag_i (s : State) (x : Nibble) (r : Byte) (b : Bool) : (s.setResultFlag x r b).i = s.i := rfl
@[simp] theorem State.setResultFlag_pc (s : State) (x : Nibble) (r : Byte) (b : Bool) : (s.setResultFlag x r b).pc = s.pc := rfl
@[simp] theorem State.setResultFlag_stack (s : State) (x : Nibble) (r : Byte) (b : Bool) : (s.setResultFlag x r b).stack = s.stack := rfl
@[simp] theorem State.setResultFlag_sp (s : State) (x : Nibble) (r : Byte) (b : Bool) : (s.setResultFlag x r b).sp = s.sp := rfl
@[simp] theorem State.setResultFlag_dt (s : State) (x : Nibble) (r : Byte) (b : Bool) : (s.setResultFlag x r b).dt = s.dt := rfl
@[simp] theorem State.setResultFlag_st (s : State) (x : Nibble) (r : Byte) (b : Bool) : (s.setResultFlag x r b).st = s.st := rfl
@[simp] theorem State.setResultFlag_mem (s : State) (x : Nibble) (r : Byte) (b : Bool) : (s.setResultFlag x r b).mem = s.mem := rfl
@[simp] theorem State.setResultFlag_key (s : State) (x : Nibble) (r : Byte) (b : Bool) : (s.setResultFlag x r b).key = s.key := rfl
@[simp] theorem State.setResultFlag_rndIn (s : State) (x : Nibble) (r : Byte) (b : Bool) : (s.setResultFlag x r b).rndIn = s.rndIn := rfl
@[simp] theorem State.setResultFlag_clearRequested (s : State) (x : Nibble) (r : Byte) (b : Bool) : (s.setResultFlag x r b).clearRequested = s.clearRequested := rfl
@[simp] theorem State.setResultFlag_index (s : State) (x : Nibble) (r : Byte) (b : Bool) : (s.setResultFlag x r b).index = s.index := rfl
@[simp] theorem State.setResultFlag_status (s : State) (x : Nibble) (r : Byte) (b : Bool) : (s.setResultFlag x r b).status = s.status := rfl
@[simp] theorem State.setResultFlag_loadError (s : State) (x : Nibble) (r : Byte) (b : Bool) : (s.setResultFlag x r b).loadError = s.loadError := rfl
@[simp] theorem State.setResultFlag_out (s : State) (x : Nibble) (r : Byte) (b : Bool) : (s.setResultFlag x r b).out = s.out := rfl
@[simp] theorem State.setResultFlag_schedule (s : State) (x : Nibble) (r : Byte) (b : Bool) : (s.setResultFlag x r b).schedule = s.schedule := rfl
@[simp] theorem State.setResultFlag_turn (s : State) (x : Nibble) (r : Byte) (b : Bool) : (s.setResultFlag x r b).turn = s.turn := rfl
@[simp] theorem State.readByte_setResultFlag (s : State) (x : Nibble) (r : Byte) (b : Bool) (n : Nat) : (s.setResultFlag x r b).readByte n = s.readByte n := rfl

/-! ### Registers -/

@[simp] theorem State.getV_setV_same (s : State) (x : Nibble) (b : Byte) : (s.setV x b).getV x = b := by
  simp [State.getV, State.setV]

theorem State.getV_setV (s : State) (x z : Nibble) (b : Byte) :
    (s.setV x b).getV z = if z = x then b else s.getV z := by
  by_cases h : z = x
  · simp [h]
  · have hn : x.toNat ≠ z.toNat := fun e => h (BitVec.eq_of_toNat_eq e).symm
    simp [State.getV, State.setV, h, hn]

@[simp] theorem State.getV_setV_ne (s : State) {x z : Nibble} (b : Byte) (h : z ≠ x) :
    (s.setV x b).getV z = s.getV z := by
  simp [State.getV_setV, h]

/-- A register file is its sixteen readings. -/
theorem State.v_ext {s t : State} (h : ∀ z, t.getV z = s.getV z) : t.v = s.v := by
  refine Vector.ext fun k hk => ?_
  have hz := h (BitVec.ofNat 4 k)
  simpa only [State.getV, BitVec.toNat_ofNat, Nat.mod_eq_of_lt (show k < 2 ^ 4 from hk)] using hz

@[simp] theorem State.getV_setFlag (s : State) (b : Bool) (z : Nibble) :
    (s.setFlag b).getV z = if z = 0xF then flagByte b else s.getV z := by
  simp [State.setFlag, State.getV_setV]

/-- The flag is the last write: it stays where the result register is `VF` (43_alu.md R230). -/
theorem State.getV_setResultFlag (s : State) (x z : Nibble) (r : Byte) (b : Bool) :
    (s.setResultFlag x r b).getV z = if z = 0xF then flagByte b else if z = x then r else s.getV z := by
  simp [State.setResultFlag, State.getV_setV]

end Sys2Proof.Machine
end

