-- ==== Sys2Proof/Laws/Ops.lean ====
section
/-! SUPPORT. One lemma per shared operation: everything it can do. -/

namespace Sys2Proof.Machine

/-! ### Operands -/

/-- A register value names a key or digit exactly when it is at most 0xF, and then it is that number. -/
theorem hexDigit_eq_some_iff {b : Byte} {d : Nibble} : hexDigit b = some d ↔ b.toNat = d.toNat := by
  have hd := d.isLt
  simp only [hexDigit]
  split
  · rename_i h
    simp only [Option.some.injEq]
    constructor
    · rintro rfl
      simp only [BitVec.toNat_setWidth]
      omega
    · intro e
      apply BitVec.eq_of_toNat_eq
      simp only [BitVec.toNat_setWidth, e]
      omega
  · simp only [reduceCtorEq, false_iff]
    omega

theorem hexDigit_eq_none_iff {b : Byte} : hexDigit b = none ↔ 0xF < b.toNat := by
  simp [hexDigit]

/-- `max(I, 0x1000)`. -/
theorem State.toNat_memRangeInfo (s : State) : s.memRangeInfo.toNat = max s.i.toNat 0x1000 := by
  simp only [State.memRangeInfo]
  split
  · rename_i h
    rw [Nat.max_eq_right (by omega)]
    rfl
  · omega

/-- The block at `I`: its bytes, or nothing when it passes the end of memory. -/
theorem State.loadBlock_eq_some_iff {s : State} {n : Nat} {bytes : List Byte} :
    s.loadBlock n = some bytes ↔
      (n = 0 ∨ s.i.toNat + n ≤ Config.memSize) ∧ bytes = Mem.readBytes s.mem s.i.toNat n := by
  simp only [State.loadBlock]
  split
  · rename_i h
    rw [Mem.inRange_iff] at h
    simp [h, eq_comm]
  · rename_i h
    rw [Mem.inRange_iff] at h
    simp [h]

theorem State.loadBlock_eq_none_iff {s : State} {n : Nat} :
    s.loadBlock n = none ↔ n ≠ 0 ∧ Config.memSize < s.i.toNat + n := by
  simp only [State.loadBlock, ite_eq_right_iff, reduceCtorEq, imp_false, Mem.inRange_iff]
  omega

/-- Storing a block at `I`: memory is written, or nothing happens when it passes the end of memory. -/
theorem State.storeBlock_eq_some_iff {s t : State} {bytes : List Byte} :
    s.storeBlock bytes = some t ↔
      (bytes.length = 0 ∨ s.i.toNat + bytes.length ≤ Config.memSize) ∧
        t = s.setMem (Mem.writeBytes s.mem s.i.toNat bytes) := by
  simp only [State.storeBlock]
  split
  · rename_i h
    rw [Mem.inRange_iff] at h
    simp only [Option.some.injEq, h, true_and]
    exact eq_comm
  · rename_i h
    rw [Mem.inRange_iff] at h
    simp only [reduceCtorEq, h, false_and]

theorem State.storeBlock_eq_none_iff {s : State} {bytes : List Byte} :
    s.storeBlock bytes = none ↔ bytes.length ≠ 0 ∧ Config.memSize < s.i.toNat + bytes.length := by
  simp only [State.storeBlock, ite_eq_right_iff, reduceCtorEq, imp_false, Mem.inRange_iff]
  omega

/-! ### Registers as a block -/

@[simp] theorem State.length_getVs (s : State) (n k : Nat) : (s.getVs n k).length = k := by
  induction k generalizing n with
  | zero => rfl
  | succ k ih => simp [State.getVs, ih]

theorem State.getElem_getVs (s : State) (n k j : Nat) (h : j < (s.getVs n k).length) :
    (s.getVs n k)[j] = s.getV (BitVec.ofNat 4 (n + j)) := by
  induction k generalizing n j with
  | zero => simp [State.getVs] at h
  | succ k ih =>
    cases j with
    | zero => rfl
    | succ j =>
      simp only [State.getVs, List.getElem_cons_succ]
      rw [ih, show n + 1 + j = n + (j + 1) by omega]

/-- Loading a block of registers changes the register file alone. -/
theorem State.setVs_eq (s : State) (n : Nat) (bytes : List Byte) :
    s.setVs n bytes = { s with v := (s.setVs n bytes).v } := by
  induction bytes generalizing s n with
  | nil => rfl
  | cons b rest ih =>
    simp only [State.setVs]
    rw [ih]
    rfl

/-- The register file after loading a block: register `n + j` holds byte `j`, the others are as before. -/
theorem State.getV_setVs (s : State) (n : Nat) (bytes : List Byte) (hn : n + bytes.length ≤ 16) (z : Nibble) :
    (s.setVs n bytes).getV z =
      if n ≤ z.toNat ∧ z.toNat < n + bytes.length then bytes.getD (z.toNat - n) 0 else s.getV z := by
  induction bytes generalizing s n with
  | nil => simp [State.setVs]
  | cons b rest ih =>
    simp only [List.length_cons] at hn
    simp only [State.setVs, List.length_cons]
    rw [ih _ _ (by omega), State.getV_setV]
    by_cases h1 : z = BitVec.ofNat 4 n
    · have hz : z.toNat = n := by rw [h1, BitVec.toNat_ofNat]; omega
      rw [if_neg (by omega), if_pos h1, if_pos (by omega), hz]
      simp
    · have hz : z.toNat ≠ n := fun e => h1 (BitVec.eq_of_toNat_eq (by rw [BitVec.toNat_ofNat, e]; omega))
      by_cases h2 : n + 1 ≤ z.toNat ∧ z.toNat < n + 1 + rest.length
      · have e : z.toNat - n = (z.toNat - (n + 1)) + 1 := by omega
        rw [if_pos h2, if_pos (by omega), e, List.getD_cons_succ]
      · rw [if_neg h2, if_neg h1, if_neg (by omega)]

/-! ### The stack -/

theorem State.push_eq_none_iff {s : State} {w : Word} : s.push w = none ↔ s.sp.val = 16 := by
  have := s.sp.isLt
  simp only [State.push]
  split <;> simp <;> omega

/-- A push below the limit: the slot at the old depth holds the word, and the depth is one more. -/
theorem State.push_of_lt {s : State} (h : s.sp.val < 16) (w : Word) :
    s.push w = some { s with stack := s.stack.set s.sp.val w h, sp := ⟨s.sp.val + 1, by omega⟩ } := by
  simp [State.push, h]

theorem State.pop_eq_none_iff {s : State} : s.pop = none ↔ s.sp.val = 0 := by
  simp only [State.pop]
  split <;> simp <;> omega

/-- A pop of a stack that is not empty: the top slot's word, and the depth is one less. -/
theorem State.pop_of_pos {s : State} (h : 0 < s.sp.val) :
    s.pop = some (s.stack[s.sp.val - 1]'(by omega), { s with sp := ⟨s.sp.val - 1, by omega⟩ }) := by
  simp [State.pop, h]

/-! ### The fetch -/

theorem State.fetch_range {s : State} (h : s.pc.toNat < Config.progBase ∨ Config.lastFetch < s.pc.toNat) :
    s.fetch = .error .fetchRange := by
  simp [State.fetch, h]

theorem State.fetch_misaligned {s : State}
    (h : ¬(s.pc.toNat < Config.progBase ∨ Config.lastFetch < s.pc.toNat)) (ho : s.pc[0] = true) :
    s.fetch = .error .fetchMisaligned := by
  simp [State.fetch, h, ho]

theorem State.fetch_ok {s : State} (h : ¬(s.pc.toNat < Config.progBase ∨ Config.lastFetch < s.pc.toNat))
    (he : s.pc[0] = false) :
    s.fetch = .ok (composeWord (s.readByte s.pc.toNat) (s.readByte (s.pc.toNat + 1))) := by
  simp [State.fetch, h, he]

/-- The fetch gives an opcode only at an even address from 0x200 to 0xFFE. -/
theorem State.fetch_ok_inv {s : State} {op : Word} (h : s.fetch = .ok op) :
    (Config.progBase ≤ s.pc.toNat ∧ s.pc.toNat ≤ Config.lastFetch) ∧ s.pc[0] = false ∧
      op = composeWord (s.readByte s.pc.toNat) (s.readByte (s.pc.toNat + 1)) := by
  simp only [State.fetch] at h
  split at h
  · simp at h
  · rename_i hr
    split at h
    · simp at h
    · rename_i ho
      exact ⟨by omega, by simpa using ho, by simpa using h.symm⟩

/-- The fetch reads back a word placed for it. -/
theorem State.fetch_placeWord {s : State} (op : Word)
    (h : ¬(s.pc.toNat < Config.progBase ∨ Config.lastFetch < s.pc.toNat)) (he : s.pc[0] = false) :
    (s.placeWord op).fetch = .ok op := by
  simp only [Config.progBase, Config.lastFetch] at h
  have hm : s.pc.toNat + 1 < Config.memSize := by simp only [Config.memSize]; omega
  have e : s.placeWord op = s.setMem (Mem.writeBytes s.mem s.pc.toNat [highByte op, lowByte op]) := by
    simp [State.placeWord, hm]
  rw [e, State.fetch_ok (by simpa [Config.progBase, Config.lastFetch] using h) (by simpa using he)]
  simp [State.readByte, Mem.read_writeBytes]

/-! ### Timers -/

theorem toNat_countDown (t : Byte) : (countDown t).toNat = t.toNat - 1 := by
  simp only [countDown]
  split
  · rename_i h; simp [h]
  · rename_i h
    have : t.toNat ≠ 0 := fun e => h (BitVec.eq_of_toNat_eq (by simpa using e))
    have ht := t.isLt
    have h1 : (1 : Byte).toNat = 1 := rfl
    rw [BitVec.toNat_sub, h1]
    omega

/-! ### Sprites -/

theorem mem_rowColumns {row : Byte} {c : Nat} : c ∈ rowColumns row ↔ c < 8 ∧ row.getLsbD (7 - c) = true := by
  simp [rowColumns]

/-- The 1 bits of a sprite: bit `7 - c` of row `r` is at `(r, c)`. -/
theorem mem_spriteBits {r0 : Nat} {rows : List Byte} {b : Nat × Nat} :
    b ∈ spriteBits r0 rows ↔
      r0 ≤ b.1 ∧ b.1 < r0 + rows.length ∧ b.2 < 8 ∧ (rows.getD (b.1 - r0) 0).getLsbD (7 - b.2) = true := by
  induction rows generalizing r0 with
  | nil =>
    simp only [spriteBits, List.not_mem_nil, List.length_nil, false_iff]
    omega
  | cons row rest ih =>
    obtain ⟨r, c⟩ := b
    simp only [spriteBits, List.mem_append, List.mem_map, mem_rowColumns, ih, List.length_cons, Prod.mk.injEq]
    constructor
    · rintro (⟨c', ⟨h1, h2⟩, rfl, rfl⟩ | ⟨h1, h2, h3, h4⟩)
      · simp [h1, h2]
      · refine ⟨by omega, by omega, h3, ?_⟩
        rwa [show r - r0 = (r - (r0 + 1)) + 1 by omega, List.getD_cons_succ]
    · rintro ⟨h1, h2, h3, h4⟩
      by_cases e : r = r0
      · subst e
        exact .inl ⟨c, ⟨h3, by simpa using h4⟩, rfl, rfl⟩
      · refine .inr ⟨by omega, by omega, h3, ?_⟩
        rwa [show r - r0 = (r - (r0 + 1)) + 1 by omega, List.getD_cons_succ] at h4

end Sys2Proof.Machine
end

