-- ==== Sys2Proof/Laws/PerInstr.lean ====
section
/-! SUPPORT. Statements about every instruction as syntax, one lemma per constructor. -/

namespace Sys2Proof

/-- The word of an instruction is taken by its row of the opcode map (30_encoding.md R115). -/
def Laws.TableRow.Statement (i : Instr) : Prop := i.row.takes (encode i) = true

theorem Laws.TableRow.of_mask {i : Instr} (h : encode i &&& i.row.mask = i.row.value) :
    Laws.TableRow.Statement i := by
  simpa [Laws.TableRow.Statement, Row.takes] using h

theorem Laws.TableRow.cls (ign : Nibble) : Laws.TableRow.Statement (.cls ign) :=
  Laws.TableRow.of_mask (maskLow_wordXNN _ _ _)

theorem Laws.TableRow.ret (ign : Nibble) : Laws.TableRow.Statement (.ret ign) :=
  Laws.TableRow.of_mask (maskLow_wordXNN _ _ _)

theorem Laws.TableRow.jp (nnn : Addr) : Laws.TableRow.Statement (.jp nnn) :=
  Laws.TableRow.of_mask (mask_wordNNN _ _)

theorem Laws.TableRow.call (nnn : Addr) : Laws.TableRow.Statement (.call nnn) :=
  Laws.TableRow.of_mask (mask_wordNNN _ _)

theorem Laws.TableRow.seByte (x : Nibble) (nn : Byte) : Laws.TableRow.Statement (.seByte x nn) :=
  Laws.TableRow.of_mask (mask_wordXNN _ _ _)

theorem Laws.TableRow.sneByte (x : Nibble) (nn : Byte) : Laws.TableRow.Statement (.sneByte x nn) :=
  Laws.TableRow.of_mask (mask_wordXNN _ _ _)

theorem Laws.TableRow.seReg (x : Nibble) (y : Nibble) (ign : Nibble) : Laws.TableRow.Statement (.seReg x y ign) :=
  Laws.TableRow.of_mask (mask_wordXYN _ _ _ _)

theorem Laws.TableRow.ldByte (x : Nibble) (nn : Byte) : Laws.TableRow.Statement (.ldByte x nn) :=
  Laws.TableRow.of_mask (mask_wordXNN _ _ _)

theorem Laws.TableRow.addByte (x : Nibble) (nn : Byte) : Laws.TableRow.Statement (.addByte x nn) :=
  Laws.TableRow.of_mask (mask_wordXNN _ _ _)

theorem Laws.TableRow.ldReg (x : Nibble) (y : Nibble) : Laws.TableRow.Statement (.ldReg x y) :=
  Laws.TableRow.of_mask (maskLow_wordXYN _ _ _ _)

theorem Laws.TableRow.orReg (x : Nibble) (y : Nibble) : Laws.TableRow.Statement (.orReg x y) :=
  Laws.TableRow.of_mask (maskLow_wordXYN _ _ _ _)

theorem Laws.TableRow.andReg (x : Nibble) (y : Nibble) : Laws.TableRow.Statement (.andReg x y) :=
  Laws.TableRow.of_mask (maskLow_wordXYN _ _ _ _)

theorem Laws.TableRow.xorReg (x : Nibble) (y : Nibble) : Laws.TableRow.Statement (.xorReg x y) :=
  Laws.TableRow.of_mask (maskLow_wordXYN _ _ _ _)

theorem Laws.TableRow.addReg (x : Nibble) (y : Nibble) : Laws.TableRow.Statement (.addReg x y) :=
  Laws.TableRow.of_mask (maskLow_wordXYN _ _ _ _)

theorem Laws.TableRow.subReg (x : Nibble) (y : Nibble) : Laws.TableRow.Statement (.subReg x y) :=
  Laws.TableRow.of_mask (maskLow_wordXYN _ _ _ _)

theorem Laws.TableRow.shr (x : Nibble) (ign : Nibble) : Laws.TableRow.Statement (.shr x ign) :=
  Laws.TableRow.of_mask (maskLow_wordXYN _ _ _ _)

theorem Laws.TableRow.subnReg (x : Nibble) (y : Nibble) : Laws.TableRow.Statement (.subnReg x y) :=
  Laws.TableRow.of_mask (maskLow_wordXYN _ _ _ _)

theorem Laws.TableRow.shl (x : Nibble) (ign : Nibble) : Laws.TableRow.Statement (.shl x ign) :=
  Laws.TableRow.of_mask (maskLow_wordXYN _ _ _ _)

theorem Laws.TableRow.sneReg (x : Nibble) (y : Nibble) (ign : Nibble) : Laws.TableRow.Statement (.sneReg x y ign) :=
  Laws.TableRow.of_mask (mask_wordXYN _ _ _ _)

theorem Laws.TableRow.ldI (nnn : Addr) : Laws.TableRow.Statement (.ldI nnn) :=
  Laws.TableRow.of_mask (mask_wordNNN _ _)

theorem Laws.TableRow.jpV0 (nnn : Addr) : Laws.TableRow.Statement (.jpV0 nnn) :=
  Laws.TableRow.of_mask (mask_wordNNN _ _)

theorem Laws.TableRow.rnd (x : Nibble) (nn : Byte) : Laws.TableRow.Statement (.rnd x nn) :=
  Laws.TableRow.of_mask (mask_wordXNN _ _ _)

theorem Laws.TableRow.drw (x : Nibble) (y : Nibble) (n : Nibble) : Laws.TableRow.Statement (.drw x y n) :=
  Laws.TableRow.of_mask (mask_wordXYN _ _ _ _)

theorem Laws.TableRow.skp (x : Nibble) : Laws.TableRow.Statement (.skp x) :=
  Laws.TableRow.of_mask (maskLow_wordXNN _ _ _)

theorem Laws.TableRow.sknp (x : Nibble) : Laws.TableRow.Statement (.sknp x) :=
  Laws.TableRow.of_mask (maskLow_wordXNN _ _ _)

theorem Laws.TableRow.ldVxDt (x : Nibble) : Laws.TableRow.Statement (.ldVxDt x) :=
  Laws.TableRow.of_mask (maskLow_wordXNN _ _ _)

theorem Laws.TableRow.ldVxK (x : Nibble) : Laws.TableRow.Statement (.ldVxK x) :=
  Laws.TableRow.of_mask (maskLow_wordXNN _ _ _)

theorem Laws.TableRow.ldDtVx (x : Nibble) : Laws.TableRow.Statement (.ldDtVx x) :=
  Laws.TableRow.of_mask (maskLow_wordXNN _ _ _)

theorem Laws.TableRow.ldStVx (x : Nibble) : Laws.TableRow.Statement (.ldStVx x) :=
  Laws.TableRow.of_mask (maskLow_wordXNN _ _ _)

theorem Laws.TableRow.addI (x : Nibble) : Laws.TableRow.Statement (.addI x) :=
  Laws.TableRow.of_mask (maskLow_wordXNN _ _ _)

theorem Laws.TableRow.ldF (x : Nibble) : Laws.TableRow.Statement (.ldF x) :=
  Laws.TableRow.of_mask (maskLow_wordXNN _ _ _)

theorem Laws.TableRow.ldB (x : Nibble) : Laws.TableRow.Statement (.ldB x) :=
  Laws.TableRow.of_mask (maskLow_wordXNN _ _ _)

theorem Laws.TableRow.stRegs (x : Nibble) : Laws.TableRow.Statement (.stRegs x) :=
  Laws.TableRow.of_mask (maskLow_wordXNN _ _ _)

theorem Laws.TableRow.ldRegs (x : Nibble) : Laws.TableRow.Statement (.ldRegs x) :=
  Laws.TableRow.of_mask (maskLow_wordXNN _ _ _)

end Sys2Proof
end

