-- ==== Sys2Proof/Laws/Step.lean ====
section
/-! SUPPORT. What one step request can do, case by case (41_cycle.md R179). -/

namespace Sys2Proof.Machine

/-- The state in which a request's fetch and execute phases run: quiet outputs, latched inputs. -/
abbrev State.ready (s : State) (keys : BitVec 16) (rnd : Byte) : State := s.quiet.latch keys rnd

theorem State.request_halted {s : State} (h : s.status.halted = true) (keys : BitVec 16) (rnd : Byte) :
    s.request keys rnd = .next s.quiet := by
  simp [State.request, h]

theorem State.request_fetchError {s : State} (h : s.status.halted = false) {keys : BitVec 16} {rnd : Byte} {c : Cause}
    (hf : s.fetch = .error c) : s.request keys rnd = .next (s.raise c 0 s.pc) := by
  have hf' : (s.quiet.latch keys rnd).fetch = .error c := hf
  simp [State.request, h, hf']

theorem State.request_fetched {s : State} (h : s.status.halted = false) {keys : BitVec 16} {rnd : Byte} {op : Word}
    (hf : s.fetch = .ok op) : s.request keys rnd = finishStep s ((s.ready keys rnd).execWord op) := by
  have hf' : (s.quiet.latch keys rnd).fetch = .ok op := hf
  simp [State.request, h, hf', State.ready]

theorem State.execWord_ok {s : State} {op : Word} {i : Instr} (h : decodeWord op = .ok i) :
    s.execWord op = exec i s := by
  simp [State.execWord, h]

theorem State.execWord_error {s : State} {op : Word} {e : DecodeError} (h : decodeWord op = .error e) :
    s.execWord op = .next (s.unknownOpcode op) := by
  simp [State.execWord, h]

/-- A step that completes ends with the timer step. -/
theorem finishStep_running (s : State) {t : State} (h : t.status.halted = false) :
    finishStep s (.next t) = .next t.timerStep := by
  simp [finishStep, h]

/-- A step that faults ends at the fault (41_cycle.md R178), with the latches of before the step. -/
theorem finishStep_halted (s : State) {t : State} (h : t.status.halted = true) :
    finishStep s (.next t) = .next (t.latch s.key s.rndIn) := by
  simp [finishStep, h]

/-- A fault raised by the execute phase of a step of `s` leaves, at the end of the step, that fault raised on `s`. -/
theorem finishStep_raise (s : State) (keys : BitVec 16) (rnd : Byte) (c : Cause) (op info : Word) :
    finishStep s (.next ((s.ready keys rnd).raise c op info)) = .next (s.raise c op info) := rfl

/-- Every request is one of these: the block is halted; the fetch faults; the opcode is unknown; an instruction is
executed. -/
theorem State.request_cases (s : State) (keys : BitVec 16) (rnd : Byte) :
    (s.status.halted = true ∧ s.request keys rnd = .next s.quiet) ∨
    (s.status.halted = false ∧ ∃ c, s.fetch = .error c ∧
      s.request keys rnd = .next (s.raise c 0 s.pc)) ∨
    (s.status.halted = false ∧ ∃ op e, s.fetch = .ok op ∧ decodeWord op = .error e ∧
      s.request keys rnd = .next ((s.ready keys rnd).unknownOpcode op).timerStep) ∨
    (s.status.halted = false ∧ ∃ op i, s.fetch = .ok op ∧ decodeWord op = .ok i ∧
      s.request keys rnd = finishStep s (exec i (s.ready keys rnd))) := by
  cases h : s.status.halted with
  | true => exact .inl ⟨rfl, State.request_halted h keys rnd⟩
  | false =>
    refine .inr ?_
    cases hf : s.fetch with
    | error c => exact .inl ⟨rfl, c, rfl, State.request_fetchError h hf⟩
    | ok op =>
      refine .inr ?_
      cases hd : decodeWord op with
      | error e =>
        refine .inl ⟨rfl, op, e, rfl, hd, ?_⟩
        rw [State.request_fetched h hf, State.execWord_error hd]
        exact finishStep_running s h
      | ok i =>
        exact .inr ⟨rfl, op, i, rfl, hd, by rw [State.request_fetched h hf, State.execWord_ok hd]⟩

/-- The state on which the host's next turn makes its request. -/
def State.afterTurn (s : State) : State := s.takeTurn.ackIf s.nextTurn.ack

/-- A step is the request of the host's next turn. -/
theorem step_eq (s : State) : step s = s.afterTurn.request s.nextTurn.keys s.nextTurn.rnd := rfl

end Sys2Proof.Machine
end

