-- ==== Sys2Proof/Tests/Slice0.lean ====
section
/-! SUPPORT. Tests of the model against the vectors of spec/95_test_vectors.md (named beside each test), checks that
ill-formed terms are refused, and witnesses of the hypotheses of the statements. -/

namespace Sys2Proof.Tests
open Sys2Proof.Machine Sys2Proof.Safety

/-! ### Well-formedness: what each check refuses -/

/-- E4, E7, E8, E9: unknown words are ill-formed. -/
theorem test_wellFormedWord_refuses :
    [0x0000, 0x0123, 0x00E1, 0x8008, 0x800D, 0x800F, 0xE09F, 0xE000, 0xF000, 0xF075, 0xF0FF].all
      (fun op => wellFormedWord op == false) = true := by decide

theorem test_wellFormedWord_accepts :
    [0x0FE0, 0x0AEE, 0xD000, 0xBFFF, 0x800E, 0xE0A1, 0xFF65].all (fun op => wellFormedWord op) = true := by decide

/-- R363: a blob of 3585 bytes does not fit, one of 3584 does. -/
theorem test_wellFormedBlob :
    wellFormedBlob (List.replicate 3585 0) = false ∧ wellFormedBlob (List.replicate 3584 0) = true := by
  simp only [wellFormedBlob, Config.progMax, List.length_replicate]
  decide

/-- X3: (64, 0) is off the grid. -/
theorem test_wellFormedCell :
    wellFormedCell 64 0 = false ∧ wellFormedCell 0 32 = false ∧ wellFormedCell 63 31 = true := by decide

/-! ### Decoding: one word of every row of 30_encoding.md R115, written out from its pattern -/

theorem test_decode_control :
    decodeWord 0b0000_0001_1110_0000 = .ok (.cls 1) ∧ decodeWord 0b0000_1010_1110_1110 = .ok (.ret 0xA) ∧
    decodeWord 0b0001_1010_1011_1100 = .ok (.jp 0xABC) ∧ decodeWord 0b0010_1010_1011_1100 = .ok (.call 0xABC) ∧
    decodeWord 0b0011_0011_0100_0010 = .ok (.seByte 3 0x42) ∧ decodeWord 0b0100_0011_0100_0010 = .ok (.sneByte 3 0x42) ∧
    decodeWord 0b0101_1010_1011_0111 = .ok (.seReg 0xA 0xB 7) ∧
    decodeWord 0b1001_1010_1011_0001 = .ok (.sneReg 0xA 0xB 1) ∧
    decodeWord 0b1011_1111_1111_1111 = .ok (.jpV0 0xFFF) := by decide

theorem test_decode_alu :
    decodeWord 0b0110_1010_1111_1111 = .ok (.ldByte 0xA 0xFF) ∧ decodeWord 0b0111_0010_0000_0001 = .ok (.addByte 2 1) ∧
    decodeWord 0b1000_0001_0010_0000 = .ok (.ldReg 1 2) ∧ decodeWord 0b1000_0001_0010_0001 = .ok (.orReg 1 2) ∧
    decodeWord 0b1000_0001_0010_0010 = .ok (.andReg 1 2) ∧ decodeWord 0b1000_0001_0010_0011 = .ok (.xorReg 1 2) ∧
    decodeWord 0b1000_0001_0010_0100 = .ok (.addReg 1 2) ∧ decodeWord 0b1000_0001_0010_0101 = .ok (.subReg 1 2) ∧
    decodeWord 0b1000_0001_0010_0110 = .ok (.shr 1 2) ∧ decodeWord 0b1000_0001_0010_0111 = .ok (.subnReg 1 2) ∧
    decodeWord 0b1000_0001_0010_1110 = .ok (.shl 1 2) ∧ decodeWord 0b1100_0011_0000_1111 = .ok (.rnd 3 0x0F) := by
  decide

theorem test_decode_memory_and_draw :
    decodeWord 0b1010_0001_1111_0000 = .ok (.ldI 0x1F0) ∧ decodeWord 0b1101_0001_0010_1111 = .ok (.drw 1 2 0xF) ∧
    decodeWord 0b1111_0010_0001_1110 = .ok (.addI 2) ∧ decodeWord 0b1111_0100_0010_1001 = .ok (.ldF 4) ∧
    decodeWord 0b1111_0001_0011_0011 = .ok (.ldB 1) ∧ decodeWord 0b1111_0010_0101_0101 = .ok (.stRegs 2) ∧
    decodeWord 0b1111_0010_0110_0101 = .ok (.ldRegs 2) := by decide

theorem test_decode_keys_and_timers :
    decodeWord 0b1110_0101_1001_1110 = .ok (.skp 5) ∧ decodeWord 0b1110_0101_1010_0001 = .ok (.sknp 5) ∧
    decodeWord 0b1111_0011_0000_0111 = .ok (.ldVxDt 3) ∧ decodeWord 0b1111_0010_0000_1010 = .ok (.ldVxK 2) ∧
    decodeWord 0b1111_0001_0001_0101 = .ok (.ldDtVx 1) ∧ decodeWord 0b1111_0001_0001_1000 = .ok (.ldStVx 1) := by
  decide

/-- R80: the byte at the lower address is bits 15..8; the rest of the stream is given back. -/
theorem test_decodeBytes :
    decodeBytes [0x1A, 0xBC, 0x77] = .ok (.jp 0xABC, [0x77]) ∧ decodeBytes [0x1A] = .error .truncated := by decide

theorem test_decodeTableWord : decodeTableWord 16 0xD005 = some (.drw 0 0 5) ∧ decodeTableWord 16 0x0123 = none := by
  decide

/-! ### One step -/

/-- The state after a request that executes `op`, placed at `PC`. -/
def after (s : State) (op : Word) (keys : BitVec 16 := 0) (rnd : Byte := 0) : Option State :=
  match (s.placeWord op).request keys rnd with
  | .next t => some t
  | .fault _ => none
  | .refused _ => none

/-- The reset state with `V[x] = a`. -/
def v1 (x : Nibble) (a : Byte) : State := State.reset.setV x a

/-- The reset state with `V[x] = a` and `V[y] = b`. -/
def v2 (x : Nibble) (a : Byte) (y : Nibble) (b : Byte) : State := (v1 x a).setV y b

/-- `V[x]`, `VF` and `PC` after the step. -/
def regs (x : Nibble) (t : Option State) : Option (Byte × Byte × Word) := t.map fun t => (t.getV x, t.getV 0xF, t.pc)

/-- `PC` after the step. -/
def pcOf (t : Option State) : Option Word := t.map (·.pc)

/-- `STATUS` after the step. -/
def statusOf (t : Option State) : Option Status := t.map (·.status)

/-- K1. -/
theorem test_cls :
    (after (State.reset.setIndex ⟨[(0, 0)], [⟨0, 0⟩]⟩) 0x00E0).map (fun t => (t.index, t.clearRequested, t.pc)) =
      some (PixelIndex.empty, true, 0x202) := by decide

/-- K3. -/
theorem test_ret :
    (after { State.reset with pc := 0x300, sp := 1, stack := State.reset.stack.set 0 0x202 } 0x00EE).map
      (fun t => (t.sp, t.pc)) = some (0, 0x204) := by decide

/-- K4. -/
theorem test_ret_underflow : statusOf (after State.reset 0x00EE) = some ⟨true, 4, 0x200, 0x00EE, 0⟩ := by decide

/-- K6. -/
theorem test_jp : pcOf (after State.reset 0x1ABC) = some 0xABC := by decide

/-- K11. -/
theorem test_call :
    (after { State.reset with pc := 0x250, sp := 15 } 0x2300).map (fun t => (t.stack[15], t.sp, t.pc)) =
      some (0x250, 16, 0x300) := by decide

/-- K12. -/
theorem test_call_overflow :
    statusOf (after { State.reset with sp := 16 } 0x2300) = some ⟨true, 3, 0x200, 0x2300, 0x0300⟩ := by decide

/-- K13. -/
theorem test_seByte :
    pcOf (after (v1 3 0x42) 0x3342) = some 0x204 ∧ pcOf (after (v1 3 0x42) 0x3343) = some 0x202 := by decide

/-- K14. -/
theorem test_sneByte :
    pcOf (after (v1 3 0x42) 0x4342) = some 0x202 ∧ pcOf (after (v1 3 0x42) 0x4300) = some 0x204 := by decide

/-- K15, K16. -/
theorem test_seReg :
    pcOf (after (v2 1 7 2 7) 0x5127) = some 0x204 ∧ pcOf (after (v2 1 7 2 8) 0x5120) = some 0x202 := by decide

/-- K17, K18. -/
theorem test_sneReg :
    pcOf (after (v2 1 7 2 8) 0x912F) = some 0x204 ∧ pcOf (after (v2 1 7 2 7) 0x9120) = some 0x202 := by decide

/-- K22: no wrap to 12 bits. -/
theorem test_jpV0 : pcOf (after (v1 0 0xFF) 0xBFFF) = some 0x10FE := by decide

/-- A1. -/
theorem test_ldByte : regs 0xA (after State.reset 0x6AFF) = some (0xFF, 0, 0x202) := by decide

/-- A2, A3: no flag. -/
theorem test_addByte :
    regs 2 (after (v2 2 0xFF 0xF 7) 0x7201) = some (0, 7, 0x202) ∧
    regs 0xF (after (v1 0xF 0xFF) 0x7F01) = some (0, 0, 0x202) := by decide

/-- A4. -/
theorem test_ldReg : regs 0 (after (v2 1 0x3C 0xF 5) 0x8010) = some (0x3C, 5, 0x202) := by decide

/-- A5. -/
theorem test_orReg : regs 0 (after ((v2 0 0xF0 1 0x0F).setV 0xF 5) 0x8011) = some (0xFF, 5, 0x202) := by decide

/-- A6. -/
theorem test_andReg : regs 0 (after ((v2 0 0xF0 1 0x3C).setV 0xF 5) 0x8012) = some (0x30, 5, 0x202) := by decide

/-- A7, A8. -/
theorem test_xorReg :
    regs 0 (after ((v2 0 0xF0 1 0x3C).setV 0xF 5) 0x8013) = some (0xCC, 5, 0x202) ∧
    regs 0 (after (v1 0 0x55) 0x8003) = some (0, 0, 0x202) := by decide

/-- A9, A11. -/
theorem test_addReg :
    regs 0 (after (v2 0 0xFF 1 1) 0x8014) = some (0, 1, 0x202) ∧
    regs 0 (after (v2 0 0x7F 1 0x80) 0x8014) = some (0xFF, 0, 0x202) := by decide

/-- A12, A13: `VF` as destination and as source. -/
theorem test_addReg_flag :
    regs 0xF (after (v2 0xF 0xFF 1 1) 0x8F14) = some (1, 1, 0x202) ∧
    regs 0 (after (v2 0 0x80 0xF 0x80) 0x80F4) = some (0, 1, 0x202) := by decide

/-- A15, A16, A18. -/
theorem test_subReg :
    regs 0 (after (v2 0 1 1 2) 0x8015) = some (0xFF, 0, 0x202) ∧
    regs 0 (after (v2 0 5 1 5) 0x8015) = some (0, 1, 0x202) ∧
    regs 0xF (after (v2 0xF 5 1 3) 0x8F15) = some (1, 1, 0x202) := by decide

/-- A19, A20, A22. -/
theorem test_shr :
    regs 0 (after (v1 0 5) 0x8006) = some (2, 1, 0x202) ∧ regs 0 (after (v2 0 4 1 0xFF) 0x8016) = some (2, 0, 0x202) ∧
    regs 0xF (after (v1 0xF 2) 0x8F06) = some (0, 0, 0x202) := by decide

/-- A23, A24, A25. -/
theorem test_subnReg :
    regs 0 (after (v2 0 1 1 2) 0x8017) = some (1, 1, 0x202) ∧ regs 0 (after (v2 0 2 1 1) 0x8017) = some (0xFF, 0, 0x202) ∧
    regs 0 (after (v2 0 7 1 7) 0x8017) = some (0, 1, 0x202) := by decide

/-- A26, A27, A28. -/
theorem test_shl :
    regs 0 (after (v1 0 0x81) 0x800E) = some (2, 1, 0x202) ∧
    regs 0 (after (v2 0 0x40 1 0xFF) 0x801E) = some (0x80, 0, 0x202) ∧
    regs 0xF (after (v1 0xF 0x80) 0x8FFE) = some (1, 1, 0x202) := by decide

/-- A29, A32. -/
theorem test_rnd :
    regs 3 (after State.reset 0xC30F 0 0xA7) = some (7, 0, 0x202) ∧
    regs 0xF (after (v1 0xF 9) 0xCF0F 0 0x5A) = some (0x0A, 0x0A, 0x202) := by decide

/-- M1. -/
theorem test_ldI : (after State.reset 0xA1F0).map (fun t => (t.i, t.pc)) = some (0x1F0, 0x202) := by decide

/-- M2, M3. -/
theorem test_addI :
    (after ((v2 2 0x20 0xF 7).setI 0x0FF0) 0xF21E).map (fun t => (t.i, t.getV 0xF)) = some (0x1010, 7) ∧
    (after ((v1 0 1).setI 0xFFFF) 0xF01E).map (·.i) = some 0 := by decide

/-- M4, M5. -/
theorem test_ldF :
    (after (v1 4 0x0A) 0xF429).map (·.i) = some 0x032 ∧ (after (v1 4 0x0F) 0xF429).map (·.i) = some 0x04B := by decide

/-- M6. -/
theorem test_ldF_fault : statusOf (after (v1 4 0x10) 0xF429) = some ⟨true, 8, 0x200, 0xF429, 0x0010⟩ := by decide

/-- M11. -/
theorem test_ldB :
    (after ((v1 1 0x7B).setI 0xFFD) 0xF133).map (fun t => Mem.readBytes t.mem 0xFFD 3) = some [1, 2, 3] := by decide

/-- M12. -/
theorem test_ldB_fault :
    (after ((v1 1 0x7B).setI 0xFFE) 0xF133).map (fun t => (t.status, Mem.readBytes t.mem 0xFFE 2)) =
      some (⟨true, 5, 0x200, 0xF133, 0x1000⟩, [0, 0]) := by decide

/-- M13. -/
theorem test_stRegs :
    (after (((v2 0 1 1 2).setV 2 3).setI 0x300) 0xF255).map (fun t => (Mem.readBytes t.mem 0x300 4, t.i)) =
      some ([1, 2, 3, 0], 0x300) := by decide

/-- M16. -/
theorem test_stRegs_fault :
    statusOf (after (State.reset.setI 0x1234) 0xF055) = some ⟨true, 5, 0x200, 0xF055, 0x1234⟩ := by decide

/-- M19: glyph 0 of the font. -/
theorem test_ldRegs :
    (after (v1 5 0x77) 0xF465).map (fun t => (t.getVs 0 6, t.i)) = some ([0xF0, 0x90, 0x90, 0x90, 0xF0, 0x77], 0) := by
  decide

/-- A block load past the end of memory faults (R266). -/
theorem test_ldRegs_fault :
    statusOf (after (State.reset.setI 0xFF1) 0xFF65) = some ⟨true, 5, 0x200, 0xFF65, 0x1000⟩ := by decide

/-- D5: the swap-to-end removal shows in the snapshot order. -/
theorem test_drw_toggles :
    (after { (State.reset.setI 0x301).setMem [(0x301, 0x80)] with
        index := ⟨[(0, 0), (32, 1), (64, 2)], [⟨0, 0⟩, ⟨1, 0⟩, ⟨2, 0⟩]⟩ } 0xD011).map
      (fun t => (t.index, t.getV 0xF, t.pc)) =
      some (⟨[(32, 1), (64, 0)], [⟨2, 0⟩, ⟨1, 0⟩]⟩, 1, 0x202) := by decide

/-- D10: nothing is drawn, and `VF` stays. -/
theorem test_drw_fault :
    (after (((v2 1 31 0xF 9).setI 0x300).setMem [(0x300, 0xF0), (0x301, 0xF0)]) 0xD012).map
      (fun t => (t.index.list, t.getV 0xF, t.status)) =
      some ([], 9, ⟨true, 6, 0x200, 0xD012, 0x0100⟩) := by decide

/-- T1, T2. -/
theorem test_skp :
    pcOf (after { v1 5 0x0A with pc := 0x210 } 0xE59E 0x0400) = some 0x214 ∧
    pcOf (after (v1 5 0x0A) 0xE59E) = some 0x202 := by decide

/-- T5. -/
theorem test_skp_fault : statusOf (after (v1 5 0x10) 0xE59E) = some ⟨true, 7, 0x200, 0xE59E, 0x0010⟩ := by decide

/-- T3, T4. -/
theorem test_sknp :
    pcOf (after { v1 5 0x0A with pc := 0x210 } 0xE5A1) = some 0x214 ∧
    pcOf (after (v1 5 0x0A) 0xE5A1 0x0400) = some 0x202 := by decide

/-- T6. -/
theorem test_sknp_fault : statusOf (after (v1 5 0xFF) 0xE5A1) = some ⟨true, 7, 0x200, 0xE5A1, 0x00FF⟩ := by decide

/-- T7. -/
theorem test_ldVxDt : (after (State.reset.setDt 5) 0xF307).map (fun t => (t.getV 3, t.dt)) = some (5, 4) := by decide

/-- T10. -/
theorem test_ldVxK :
    regs 2 (after { State.reset with pc := 0x220 } 0xF20A 0x0088) = some (3, 0, 0x222) := by decide

/-- T9: a waiting step counts the timers. -/
theorem test_ldVxK_waits :
    (after { State.reset.setDt 2 with pc := 0x220 } 0xF20A).map (fun t => (t.pc, t.getV 2, t.dt)) =
      some (0x220, 0, 1) := by decide

/-- T12, T13. -/
theorem test_ldDtVx :
    (after (v1 1 5) 0xF115).map (·.dt) = some 4 ∧ (after (v1 1 0) 0xF115).map (·.dt) = some 0 := by decide

/-- T14, T15, T17, T19. -/
theorem test_ldStVx :
    (after (v1 1 3) 0xF118).map (fun t => (t.st, t.out.tone)) = some (2, false) ∧
    (after (v1 1 1) 0xF118).map (fun t => (t.st, t.out.tone)) = some (0, true) ∧
    (after ((v1 1 0).setSt 1) 0xF118).map (fun t => (t.st, t.out.tone)) = some (0, false) ∧
    (after ((v1 1 5).setSt 1) 0xF118).map (fun t => (t.st, t.out.tone)) = some (4, false) := by decide

/-! ### The fetch, unknown opcodes, a halted block -/

/-- Y3, Y4. -/
theorem test_fetch_faults :
    statusOf (after { State.reset with pc := 0xFFF } 0x6000) = some ⟨true, 1, 0xFFF, 0, 0x0FFF⟩ ∧
    statusOf (after { State.reset with pc := 0x201 } 0x6000) = some ⟨true, 2, 0x201, 0, 0x0201⟩ := by decide

/-- Y6: the last fetchable word. -/
theorem test_fetch_last : pcOf (after { State.reset with pc := 0xFFE } 0x1200) = some 0x200 := by decide

/-- Y7. -/
theorem test_unknown :
    (after (State.reset.setDt 3) 0x8008).map (fun t => (t.out, t.pc, t.dt)) =
      some (⟨false, true, 1, 0x8008⟩, 0x202, 2) := by decide

/-- Y10, Y11: neither a halted block nor a faulting step counts the timers. -/
theorem test_no_timer_step :
    (after { State.reset with dt := 3, st := 3, status := ⟨true, 4, 0x200, 0x00EE, 0⟩ } 0x6001).map
      (fun t => (t.getV 0, t.dt, t.st, t.out)) = some (0, 3, 3, ⟨false, false, 0, 0⟩) ∧
    (after { State.reset with st := 2, pc := 0x1FE } 0x6001).map (fun t => (t.st, t.out.tone)) = some (2, false) := by
  decide

/-- R14, R323: a faulting step leaves the latches as they were, in the fetch and in the execute phase. -/
theorem test_fault_keeps_latches :
    (after { State.reset with key := 1, rndIn := 2, pc := 0x201 } 0x6001 0xFFFF 0xFF).map (fun t => (t.key, t.rndIn)) =
      some (1, 2) ∧
    (after { State.reset with key := 1, rndIn := 2 } 0x00EE 0xFFFF 0xFF).map (fun t => (t.key, t.rndIn)) =
      some (1, 2) ∧
    (after { State.reset with key := 1, rndIn := 2 } 0x6001 0xFFFF 0xFF).map (fun t => (t.key, t.rndIn)) =
      some (0xFFFF, 0xFF) := by decide

/-- T16, T18: the tone. -/
theorem test_tone :
    (after (State.reset.setSt 1) 0x6000).map (fun t => (t.st, t.out.tone)) = some (0, true) ∧
    (after (State.reset.setSt 2) 0x6000).map (fun t => (t.st, t.out.tone)) = some (1, false) := by decide

/-! ### The pixel index -/

/-- W9, rows 4 to 7. -/
theorem test_index :
    (((PixelIndex.empty.activateCell ⟨5, 5⟩).activateCell ⟨1, 0⟩).activateCell ⟨2, 0⟩).list =
      [⟨5, 5⟩, ⟨1, 0⟩, ⟨2, 0⟩] ∧
    ((((PixelIndex.empty.activateCell ⟨5, 5⟩).activateCell ⟨1, 0⟩).activateCell ⟨2, 0⟩).deactivateCell ⟨5, 5⟩).list =
      [⟨2, 0⟩, ⟨1, 0⟩] := by decide

/-- X3. -/
theorem test_index_bounds : PixelIndex.empty.isActive 64 0 = none := by decide

/-! ### A step of the machine -/

/-- The word placed for the next fetch is the one that the first step after reset runs. -/
theorem test_withFetchWord :
    (match step (State.reset.withFetchWord 16 0x6005) with
      | .next t => some (t.getV 0, t.pc)
      | .fault _ => none
      | .refused _ => none) = some (5, 0x202) := by decide

/-- The host's scheduled turn: its `clear_ack` comes before the request, its inputs are latched. -/
theorem test_step_turn :
    (match step { State.reset.withFetchWord 16 0xC0FF with clearRequested := true, schedule := [⟨true, 0x80, 0xA7⟩] } with
      | .next t => some (t.getV 0, t.key, t.clearRequested, t.schedule)
      | .fault _ => none
      | .refused _ => none) = some (0xA7, 0x80, false, []) := by decide

/-! ### Witnesses: states and operands that meet the hypotheses of a statement, a clause at a time -/

/-- A state with one active cell, one stacked address, a byte in memory and a scheduled turn of the host. -/
def busy : State :=
  { State.reset with
    mem := [(0x200, 0x60), (0x201, 0x05), (0xFFF, 0x80)]
    index := ⟨[(0, 0)], [⟨0, 0⟩]⟩
    sp := 1
    stack := State.reset.stack.set 0 0xFFE
    schedule := [⟨true, 0x80, 0xA7⟩] }

/-- `busy` halted by a return with an empty stack. -/
def stopped : State := { busy with sp := 0, status := ⟨true, 4, 0x200, 0x00EE, 0⟩ }

/-- `busy` about to execute `op`. -/
def about (op : Word) : State := busy.placeWord op

theorem witness_wellFormedWord : wellFormedWord 0xFF65 = true ∧ wellFormedWord 0x800F = false := by decide

theorem witness_EncodeOfDecode : ∃ (op : Word) (i : Instr), decodeWord op = .ok i := ⟨0x0FE0, .cls 0xF, by decide⟩

theorem witness_IgnoredBits : ∃ (s : State), s.sp.val ≠ 0 := ⟨busy, by decide⟩

theorem witness_StepRuns :
    ∃ (s : State) (i : Instr), s.status.halted = false ∧ Fetchable s ∧ decodeWord (opcodeAt s) = .ok i :=
  ⟨busy, .ldByte 0 5, rfl, ⟨by decide, by decide, by decide⟩, by decide⟩

theorem witness_StepRuns_last :
    ∃ (s : State) (i : Instr), s.status.halted = false ∧ Fetchable s ∧ decodeWord (opcodeAt s) = .ok i :=
  ⟨({ busy with pc := 0xFFE }).placeWord 0x1200, .jp 0x200, rfl, ⟨by decide, by decide, by decide⟩, by decide⟩

theorem witness_FetchRange_below :
    ∃ s : State, s.status.halted = false ∧ (s.pc.toNat < 0x200 ∨ 0xFFE < s.pc.toNat) :=
  ⟨{ State.reset with pc := 0x1FF }, rfl, by decide⟩

theorem witness_FetchRange_above :
    ∃ s : State, s.status.halted = false ∧ (s.pc.toNat < 0x200 ∨ 0xFFE < s.pc.toNat) :=
  ⟨{ State.reset with pc := 0xFFF }, rfl, by decide⟩

theorem witness_FetchMisaligned :
    ∃ s : State, s.status.halted = false ∧ 0x200 ≤ s.pc.toNat ∧ s.pc.toNat ≤ 0xFFE ∧ s.pc.toNat % 2 = 1 :=
  ⟨{ State.reset with pc := 0xFFD }, rfl, by decide⟩

theorem witness_UnknownOpcode :
    ∃ s : State, s.status.halted = false ∧ Fetchable s ∧ wellFormedWord (opcodeAt s) = false :=
  ⟨about 0x8008, rfl, ⟨by decide, by decide, by decide⟩, by decide⟩

theorem witness_HaltedBlock : ∃ s : State, s.status.halted = true := ⟨stopped, rfl⟩

theorem witness_FaultingStep_execute :
    ∃ (s t : State), s.status.halted = false ∧ s.request 0 0 = .next t ∧ t.status.halted = true ∧
      2 < t.status.cause.toNat :=
  ⟨{ about 0x00EE with sp := 0 }, _, rfl, rfl, by decide, by decide⟩

theorem witness_FaultingStep_fetch :
    ∃ (s t : State), s.status.halted = false ∧ s.request 0 0 = .next t ∧ t.status.halted = true ∧
      t.status.cause.toNat ≤ 2 :=
  ⟨{ State.reset with pc := 0x201 }, _, rfl, rfl, by decide, by decide⟩

theorem witness_CompletedStep :
    ∃ (s t : State), s.status.halted = false ∧ s.request 0 0 = .next t ∧ t.status.halted = false :=
  ⟨{ busy with dt := 5, st := 1 }, _, rfl, rfl, by decide⟩

/-- `INV` of the index of `busy`. -/
theorem inv_busy : busy.index.Inv := by
  constructor
  · intro c k h
    have hc : (if c.index = 0 then some 0 else none) = some k := h
    split at hc
    · rename_i h0
      cases hc
      have : c = ⟨0, 0⟩ := Coord.index_inj (d := ⟨0, 0⟩) h0
      subst this
      exact ⟨by decide, rfl⟩
    · cases hc
  · intro k c hk h
    have hk' : k < 1 := hk
    obtain rfl : k = 0 := by omega
    have : (⟨0, 0⟩ : Coord) = c := Option.some.inj h
    subst this
    rfl

theorem witness_ClsEmptiesTheDisplay : ∃ s : State, s.index.Inv ∧ s.index.active ⟨0, 0⟩ = true :=
  ⟨busy, inv_busy, by decide⟩

theorem witness_Ret_pops : ∃ s : State, 0 < s.sp.val := ⟨busy, by decide⟩

theorem witness_Ret_pops_full : ∃ s : State, 0 < s.sp.val := ⟨{ busy with sp := 16 }, by decide⟩

theorem witness_Ret_faults : ∃ (op : Word) (s : State), op &&& 0xF0FF = 0x00EE ∧ s.sp.val = 0 :=
  ⟨0x0FEE, State.reset, by decide, by decide⟩

theorem witness_Call_pushes : ∃ s : State, s.sp.val < 16 := ⟨{ busy with sp := 15 }, by decide⟩

theorem witness_Call_faults : ∃ (op : Word) (s : State), op &&& 0xF000 = 0x2000 ∧ s.sp.val = 16 :=
  ⟨0x2FFF, { busy with sp := 16 }, by decide, by decide⟩

theorem witness_ReturnResumes :
    ∃ (s t u : State), s.sp.val < 16 ∧ exec (.call 0x300) s = .next t ∧ u.stack = t.stack ∧ u.sp = t.sp :=
  ⟨{ busy with sp := 15 }, _, _, by decide, rfl, rfl, rfl⟩

theorem witness_AddSetsCarry_other_register : ∃ x : Nibble, x ≠ 0xF := ⟨0xE, by decide⟩

theorem witness_Encoded_masks :
    (∃ op : Word, op &&& 0xF000 = 0xC000) ∧ (∃ op : Word, op &&& 0xF00F = 0x800E) ∧
    (∃ op : Word, op &&& 0xF0FF = 0xF065) :=
  ⟨⟨0xCFFF, by decide⟩, ⟨0x8FFE, by decide⟩, ⟨0xFF65, by decide⟩⟩

theorem witness_RandomIsTheInputMasked :
    ∃ s : State, s.status.halted = false ∧ Fetchable s ∧ opcodeAt s &&& 0xF000 = 0xC000 :=
  ⟨about 0xCF0F, rfl, ⟨by decide, by decide, by decide⟩, by decide⟩

theorem witness_FontAddress : ∃ (x : Nibble) (s : State), (s.getV x).toNat ≤ 0xF := ⟨4, v1 4 0xF, by decide⟩

theorem witness_FontFault :
    ∃ (op : Word) (s : State), op &&& 0xF0FF = 0xF029 ∧ 0xF < (s.getV (fieldX op)).toNat :=
  ⟨0xF429, v1 4 0x10, by decide, by decide⟩

theorem witness_Bcd : ∃ s : State, s.i.toNat + 2 ≤ 0xFFF := ⟨busy.setI 0xFFD, by decide⟩

theorem witness_Bcd_fault : ∃ (op : Word) (s : State), op &&& 0xF0FF = 0xF033 ∧ 0xFFF < s.i.toNat + 2 :=
  ⟨0xF133, busy.setI 0xFFE, by decide, by decide⟩

theorem witness_Block : ∃ (x : Nibble) (s : State), s.i.toNat + x.toNat ≤ 0xFFF := ⟨0xF, busy.setI 0xFF0, by decide⟩

theorem witness_StoreRegisters_fault :
    ∃ (op : Word) (s : State), op &&& 0xF0FF = 0xF055 ∧ 0xFFF < s.i.toNat + (fieldX op).toNat :=
  ⟨0xFF55, busy.setI 0xFF1, by decide, by decide⟩

theorem witness_LoadRegisters_fault :
    ∃ (op : Word) (s : State), op &&& 0xF0FF = 0xF065 ∧ 0xFFF < s.i.toNat + (fieldX op).toNat :=
  ⟨0xF065, busy.setI 0x1000, by decide, by decide⟩

/-- The last two of all sixteen registers, stored up to the last byte of memory. -/
theorem witness_StoredBytes_registers :
    ∃ (x : Nibble) (s t u : State) (k : Nat), s.i.toNat + x.toNat ≤ 0xFFF ∧ exec (.stRegs x) s = .next t ∧
      k < x.toNat ∧ u.mem = t.mem ∧ u.pc.toNat = s.i.toNat + k ∧ Fetchable u := by
  exact ⟨0xF, busy.setI 0xFF0, _, { busy with mem := Mem.writeBytes busy.mem 0xFF0 (busy.getVs 0 16), pc := 0xFFE }, 14,
    by decide, rfl, by decide, rfl, rfl, by decide, by decide, by decide⟩

theorem witness_StoredBytes_digits :
    ∃ (s t u : State), s.i.toNat + 2 ≤ 0xFFF ∧ exec (.ldB 0) s = .next t ∧ u.mem = t.mem ∧ Fetchable u ∧
      u.pc.toNat = s.i.toNat := by
  exact ⟨busy.setI 0xFFC, _, { busy with mem := Mem.writeBytes busy.mem 0xFFC [0, 0, 0], pc := 0xFFC }, by decide,
    rfl, rfl, ⟨by decide, by decide, by decide⟩, rfl⟩

theorem witness_StoredBytes_last_digits :
    ∃ (s t u : State), s.i.toNat + 2 ≤ 0xFFF ∧ exec (.ldB 0) s = .next t ∧ u.mem = t.mem ∧ Fetchable u ∧
      u.pc.toNat = s.i.toNat + 1 := by
  exact ⟨busy.setI 0xFFD, _, { busy with mem := Mem.writeBytes busy.mem 0xFFD [0, 0, 0], pc := 0xFFE }, by decide,
    rfl, rfl, ⟨by decide, by decide, by decide⟩, rfl⟩

theorem witness_FetchIsBigEndian :
    ∃ (s : State) (op : Word), s.status.halted = false ∧ Fetchable s ∧
      op.toNat = 256 * (s.readByte s.pc.toNat).toNat + (s.readByte (s.pc.toNat + 1)).toNat :=
  ⟨busy, 0x6005, rfl, ⟨by decide, by decide, by decide⟩, by decide⟩

/-- The sprite of one row at the last byte of memory, one pixel, over the active cell: a collision. -/
theorem witness_Draw_collision :
    ∃ s : State, s.i.toNat + (1 : Nibble).toNat - 1 ≤ 0xFFF ∧
      (∀ (r c : Nat), r < (1 : Nibble).toNat → c < 8 → ¬PixelOffGrid s 0 1 r c) ∧ s.index.Inv ∧
      SpriteCovers s 0 1 1 ⟨0, 0⟩ ∧ s.index.active ⟨0, 0⟩ = true := by
  refine ⟨busy.setI 0xFFF, by decide, ?_, inv_busy, ⟨0, 0, by decide, by decide, ?_, rfl, rfl⟩, by decide⟩
  · rintro r c hr hc ⟨-, h⟩
    have hx : ((busy.setI 0xFFF).getV 0).toNat = 0 := by decide
    have hy : ((busy.setI 0xFFF).getV 1).toNat = 0 := by decide
    have hr' : r < 1 := hr
    omega
  · exact (by decide : (Mem.read busy.mem 0xFFF).getLsbD 7 = true)

/-- No row: nothing is read, wherever `I` is and however far `V[X]` is off the grid (D6). -/
theorem witness_Draw_no_row :
    ∃ s : State, (0 : Nibble).toNat = 0 ∧
      (∀ (r c : Nat), r < (0 : Nibble).toNat → c < 8 → ¬PixelOffGrid s 0 1 r c) ∧ s.index.Inv ∧
      (∀ d : Coord, SpriteCovers s 0 1 0 d → s.index.active d = false) :=
  ⟨(busy.setV 0 0xC8).setI 0xFFFF, rfl, fun r _ hr => absurd hr (Nat.not_lt_zero r), inv_busy,
    fun _ ⟨r, _, hr, _⟩ => absurd hr (Nat.not_lt_zero r)⟩

theorem witness_Draw_memRange :
    ∃ (op : Word) (s : State), op &&& 0xF000 = 0xD000 ∧ 0 < (fieldN op).toNat ∧
      0xFFF < s.i.toNat + (fieldN op).toNat - 1 :=
  ⟨0xD012, busy.setI 0xFFF, by decide, by decide, by decide⟩

/-- D8: the first pixel off the grid is row 0, column 4. -/
theorem witness_Draw_bounds :
    ∃ (op : Word) (s : State), op &&& 0xF000 = 0xD000 ∧ s.i.toNat + (fieldN op).toNat - 1 ≤ 0xFFF ∧
      0 < (fieldN op).toNat ∧ PixelOffGrid s (fieldX op) (fieldY op) 0 4 ∧
      ∀ (r' c' : Nat), c' < 8 → RowMajorBefore r' c' 0 4 → ¬PixelOffGrid s (fieldX op) (fieldY op) r' c' := by
  refine ⟨0xD011, ((v2 0 60 1 0).setI 0x300).setMem [(0x300, 0xF8)], by decide, by decide, by decide,
    ⟨?_, .inl (by decide)⟩, ?_⟩
  · exact (by decide : (Mem.read [(0x300, 0xF8)] 0x300).getLsbD 3 = true)
  · rintro r' c' hc hb ⟨-, h⟩
    have hx : ((((v2 0 60 1 0).setI 0x300).setMem [(0x300, 0xF8)]).getV (fieldX 0xD011)).toNat = 60 := by decide
    have hy : ((((v2 0 60 1 0).setI 0x300).setMem [(0x300, 0xF8)]).getV (fieldY 0xD011)).toNat = 0 := by decide
    rcases hb with hb | ⟨rfl, hb⟩ <;> omega

/-- The second draw names the registers of the first; the one covered cell is active, so that `VF` ends at 0. -/
theorem witness_DrawingTwice :
    ∃ s t : State, s.i.toNat + (1 : Nibble).toNat - 1 ≤ 0xFFF ∧
      (∀ (r c : Nat), r < (1 : Nibble).toNat → c < 8 → ¬PixelOffGrid s 0 1 r c) ∧ s.index.Inv ∧
      exec (.drw 0 1 1) s = .next t ∧ t.getV 0 = s.getV 0 ∧ t.getV 1 = s.getV 1 ∧
      ∀ d : Coord, SpriteCovers s 0 1 1 d → s.index.active d = true := by
  refine ⟨busy.setI 0xFFF, _, by decide, ?_, inv_busy, rfl, by decide, by decide, ?_⟩
  rotate_left
  · rintro ⟨x, y⟩ ⟨r, c, hr, hc, hp, hx, hy⟩
    obtain rfl : r = 0 := Nat.lt_one_iff.mp hr
    have hp' : (0x80 : Byte).getLsbD (7 - c) = true := hp
    obtain rfl : c = 0 := (by decide : ∀ c : Nat, c < 8 → (0x80 : Byte).getLsbD (7 - c) = true → c = 0) c hc hp'
    obtain rfl : x = 0 := Fin.ext hx
    obtain rfl : y = 0 := Fin.ext hy
    decide
  rintro r c hr hc ⟨-, h⟩
  have hx : ((busy.setI 0xFFF).getV 0).toNat = 0 := by decide
  have hy : ((busy.setI 0xFFF).getV 1).toNat = 0 := by decide
  have hr' : r < 1 := hr
  omega

/-- The first draw's column is in `VF`, which it overwrites; the second names `V0`, which holds the same; the one
covered cell, (3, 0), is not active. -/
theorem witness_DrawingTwice_flag :
    ∃ s t : State, s.i.toNat + (1 : Nibble).toNat - 1 ≤ 0xFFF ∧
      (∀ (r c : Nat), r < (1 : Nibble).toNat → c < 8 → ¬PixelOffGrid s 0xF 1 r c) ∧ s.index.Inv ∧
      exec (.drw 0xF 1 1) s = .next t ∧ t.getV 0 = s.getV 0xF ∧ t.getV 1 = s.getV 1 ∧
      SpriteCovers s 0xF 1 1 ⟨3, 0⟩ ∧ s.index.active ⟨3, 0⟩ = false := by
  refine ⟨((busy.setV 0 3).setV 0xF 3).setI 0xFFF, _, by decide, ?_, inv_busy, rfl, by decide, by decide,
    ⟨0, 0, by decide, by decide, (by decide : (Mem.read busy.mem 0xFFF).getLsbD 7 = true), by decide, by decide⟩,
    by decide⟩
  rintro r c hr hc ⟨-, h⟩
  have hx : ((((busy.setV 0 3).setV 0xF 3).setI 0xFFF).getV 0xF).toNat = 3 := by decide
  have hy : ((((busy.setV 0 3).setV 0xF 3).setI 0xFFF).getV 1).toNat = 0 := by decide
  have hr' : r < 1 := hr
  omega

theorem witness_KeySkip : ∃ (x : Nibble) (s : State), (s.getV x).toNat ≤ 0xF := ⟨5, v1 5 0xF, by decide⟩

theorem witness_Skp_fault : ∃ (op : Word) (s : State), op &&& 0xF0FF = 0xE09E ∧ 0xF < (s.getV (fieldX op)).toNat :=
  ⟨0xE59E, v1 5 0x10, by decide, by decide⟩

theorem witness_Sknp_fault : ∃ (op : Word) (s : State), op &&& 0xF0FF = 0xE0A1 ∧ 0xF < (s.getV (fieldX op)).toNat :=
  ⟨0xE5A1, v1 5 0x10, by decide, by decide⟩

theorem witness_DelayTimerRead :
    ∃ s : State, s.status.halted = false ∧ Fetchable s ∧ opcodeAt s &&& 0xF0FF = 0xF007 :=
  ⟨(about 0xFF07).setDt 1, rfl, ⟨by decide, by decide, by decide⟩, by decide⟩

theorem witness_KeyWait_none : ∃ s : State, ∀ k : Nat, k < 16 → s.key.getLsbD k = false :=
  ⟨State.reset, fun _ _ => BitVec.getLsbD_zero⟩

theorem witness_KeyWait_highest :
    ∃ (s : State) (k : Nat), k < 16 ∧ s.key.getLsbD k = true ∧ ∀ j : Nat, j < k → s.key.getLsbD j = false :=
  ⟨{ State.reset with key := 0x8000 }, 15, by decide, by decide, by decide⟩

theorem witness_KeyWait_lowest :
    ∃ (s : State) (k : Nat), k < 16 ∧ s.key.getLsbD k = true ∧ ∀ j : Nat, j < k → s.key.getLsbD j = false :=
  ⟨{ State.reset with key := 0xFFFF }, 0, by decide, by decide, by decide⟩

theorem witness_KeyWait_request :
    ∃ s : State, s.status.halted = false ∧ Fetchable s ∧ opcodeAt s &&& 0xF0FF = 0xF00A :=
  ⟨(about 0xFF0A).setSt 1, rfl, ⟨by decide, by decide, by decide⟩, by decide⟩

theorem witness_DelayTimerSet :
    ∃ s : State, s.status.halted = false ∧ Fetchable s ∧ opcodeAt s &&& 0xF0FF = 0xF015 :=
  ⟨(about 0xF115).setV 1 0, rfl, ⟨by decide, by decide, by decide⟩, by decide⟩

theorem witness_SoundTimerSet :
    ∃ s : State, s.status.halted = false ∧ Fetchable s ∧ opcodeAt s &&& 0xF0FF = 0xF018 :=
  ⟨(about 0xF118).setV 1 1, rfl, ⟨by decide, by decide, by decide⟩, by decide⟩

theorem witness_MemoryWritten :
    ∃ (i : Instr) (s t : State) (a : Nat), exec i s = .next t ∧ t.readByte a ≠ s.readByte a :=
  ⟨.stRegs 0, (busy.setV 0 0xAB).setI 0xFFF, _, 0xFFF, rfl, by decide⟩

theorem witness_IndexMutated : ∃ (i : Instr) (s t : State), exec i s = .next t ∧ t.index ≠ s.index :=
  ⟨.cls 0, busy, _, rfl, by decide⟩

theorem witness_IndexMutated_request : ∃ s t : State, s.request 0 0 = .next t ∧ t.index ≠ s.index :=
  ⟨about 0x00E0, _, rfl, by decide⟩

theorem witness_IWritten : ∃ (i : Instr) (s t : State), exec i s = .next t ∧ t.i ≠ s.i :=
  ⟨.ldI 0xFFF, busy, _, rfl, by decide⟩

theorem witness_StackWritten :
    ∃ (i : Instr) (s t : State), exec i s = .next t ∧ t.sp ≠ s.sp ∧ t.stack ≠ s.stack :=
  ⟨.call 0x300, { busy with sp := 15 }, _, rfl, by decide, by decide⟩

theorem witness_DelayTimerWritten : ∃ (i : Instr) (s t : State), exec i s = .next t ∧ t.dt ≠ s.dt :=
  ⟨.ldDtVx 0, v1 0 1, _, rfl, by decide⟩

theorem witness_SoundTimerWritten : ∃ (i : Instr) (s t : State), exec i s = .next t ∧ t.st ≠ s.st :=
  ⟨.ldStVx 0, v1 0 1, _, rfl, by decide⟩

theorem witness_ClearRequestedWritten :
    ∃ (i : Instr) (s t : State), exec i s = .next t ∧ t.clearRequested ≠ s.clearRequested :=
  ⟨.cls 0, busy, _, rfl, by decide⟩

theorem witness_RegisterWrites : ∃ (i : Instr) (s t : State), exec i s = .next t ∧ 0xE ∉ writtenRegs i :=
  ⟨.ldByte 0xF 1, busy, _, rfl, by decide⟩

theorem witness_IndexBoundsUnreachable :
    ∃ (i : Instr) (s t : State), s.status.cause ≠ 9 ∧ exec i s = .next t :=
  ⟨.drw 0 1 1, busy.setI 0xFFF, _, by decide, rfl⟩

theorem witness_CanonicalMemories :
    ∃ m n : Mem, Mem.wf m ∧ Mem.wf n ∧ ∀ a : Nat, Mem.read m a = Mem.read n a :=
  ⟨busy.mem, Mem.write (Mem.write busy.mem 0x300 1) 0x300 0, by decide, by decide, fun _ => rfl⟩

theorem witness_IndexOperations :
    ∃ (p : PixelIndex) (c : Coord), p.Inv ∧ p.active c = true := ⟨busy.index, ⟨0, 0⟩, inv_busy, by decide⟩

/-- Two active cells. -/
def pair : PixelIndex := ⟨[(0, 0), (32, 1)], [⟨0, 0⟩, ⟨1, 0⟩]⟩

theorem inv_pair : pair.Inv := by
  constructor
  · intro c k h
    have hc : (if c.index = 0 then some 0 else if c.index = 32 then some 1 else none) = some k := h
    split at hc
    · rename_i h0
      cases hc
      obtain rfl : c = ⟨0, 0⟩ := Coord.index_inj (d := ⟨0, 0⟩) h0
      exact ⟨by decide, rfl⟩
    · split at hc
      · rename_i h1
        cases hc
        obtain rfl : c = ⟨1, 0⟩ := Coord.index_inj (d := ⟨1, 0⟩) h1
        exact ⟨by decide, rfl⟩
      · cases hc
  · intro k c hk h
    have hk' : k < 2 := hk
    obtain rfl | rfl : k = 0 ∨ k = 1 := by omega
    · obtain rfl : (⟨0, 0⟩ : Coord) = c := Option.some.inj h
      rfl
    · obtain rfl : (⟨1, 0⟩ : Coord) = c := Option.some.inj h
      rfl

theorem witness_Activate_inactive : ∃ (p : PixelIndex) (c : Coord), p.Inv ∧ p.active c = false :=
  ⟨pair, ⟨63, 31⟩, inv_pair, by decide⟩

theorem witness_Activate_active : ∃ (p : PixelIndex) (c : Coord), p.Inv ∧ p.active c = true :=
  ⟨pair, ⟨1, 0⟩, inv_pair, by decide⟩

theorem witness_Deactivate_last :
    ∃ (p : PixelIndex) (c : Coord) (loc : Nat), p.Inv ∧ p.cellAt c = some loc ∧ loc + 1 = p.len :=
  ⟨pair, ⟨1, 0⟩, 1, inv_pair, rfl, rfl⟩

theorem witness_Deactivate_swap :
    ∃ (p : PixelIndex) (c : Coord) (loc : Nat), p.Inv ∧ p.cellAt c = some loc ∧ loc + 1 < p.len :=
  ⟨pair, ⟨0, 0⟩, 0, inv_pair, rfl, by decide⟩

theorem witness_SnapEntry : ∃ (s : State) (k : Nat), k < s.index.list.length := ⟨busy, 0, by decide⟩

theorem witness_ResetLoads :
    ∃ (prog : List Byte) (k : Nat), prog.length ≤ 3584 ∧ k < prog.length :=
  ⟨List.replicate 3584 0xAB, 3583, by simp only [List.length_replicate]; decide,
    by simp only [List.length_replicate]; decide⟩

theorem witness_ResetLoadsTheFont : ∃ (prog : List Byte) (d r : Nat), prog.length ≤ 3584 ∧ d < 16 ∧ r < 5 :=
  ⟨List.replicate 3584 0xAB, 15, 4, by simp only [List.length_replicate]; decide, by decide, by decide⟩

theorem witness_ResetLeavesMemInit :
    ∃ (prog : List Byte) (a : Nat), prog.length ≤ 3584 ∧ 0x50 ≤ a ∧
      (a < 0x200 ∨ 0x200 + prog.length ≤ a) ∧ a < 4096 :=
  ⟨List.replicate 3583 0xAB, 0xFFF, by simp only [List.length_replicate]; decide⟩

theorem witness_ResetRefuses : ∃ prog : List Byte, 3584 < prog.length :=
  ⟨List.replicate 3585 0xAB, by simp only [List.length_replicate]; decide⟩

theorem canonical_busy : MemoryCanonical busy := by unfold MemoryCanonical; decide

theorem consistent_busy : IndexConsistent busy := ⟨by decide, inv_busy⟩

theorem bounded_busy : FlowBounded busy := by
  refine ⟨by decide, fun k h => ?_⟩
  have h' : k < 1 := h
  obtain rfl : k = 0 := by omega
  exact (by decide : 0x200 ≤ (0xFFE : Word).toNat ∧ (0xFFE : Word).toNat ≤ 0xFFE ∧ (0xFFE : Word).toNat % 2 = 0)

theorem legal_busy : StatusLegal busy ∧ DiagnosticLegal busy := by
  unfold StatusLegal DiagnosticLegal
  decide

/-- One step from `busy`: the host's `clear_ack`, and then `6005`. -/
theorem witness_StepKeepsTheInvariants :
    ∃ s t : State, MemoryCanonical s ∧ IndexConsistent s ∧ FlowBounded s ∧ StatusLegal s ∧ DiagnosticLegal s ∧
      step s = .next t :=
  ⟨busy, _, canonical_busy, consistent_busy, bounded_busy, legal_busy.1, legal_busy.2, rfl⟩

theorem witness_HostStepKeepsTheInvariants :
    ∃ (s t : State) (keys : BitVec 16) (rnd : Byte), Inv s ∧ s.hostMove (.step keys rnd) = .next t :=
  ⟨busy, _, 0xFFFF, 0xFF, ⟨canonical_busy, consistent_busy, bounded_busy, legal_busy.1, legal_busy.2⟩, rfl⟩

theorem witness_AckKeepsTheInvariants : ∃ s t : State, Inv s ∧ s.hostMove .clearAck = .next t :=
  ⟨busy, _, ⟨canonical_busy, consistent_busy, bounded_busy, legal_busy.1, legal_busy.2⟩, rfl⟩

/-- A reset that fits and one that does not. -/
theorem witness_HostResetKeepsTheInvariants :
    ∃ s t other : State, Inv other ∧ s.hostMove (.reset (fun _ => 0xAB) [0x12, 0x00] other) = .next t :=
  ⟨stopped, _, busy, ⟨canonical_busy, consistent_busy, bounded_busy, legal_busy.1, legal_busy.2⟩, rfl⟩

theorem witness_HostResetRefusedKeepsTheInvariants :
    ∃ s t other : State, Inv other ∧
      s.hostMove (.reset (fun _ => 0xAB) (List.replicate 3585 0x12) other) = .next t :=
  ⟨stopped, _, busy, ⟨canonical_busy, consistent_busy, bounded_busy, legal_busy.1, legal_busy.2⟩, rfl⟩

end Sys2Proof.Tests
end

section
/-! The decoder drops no bit of a word (30_encoding.md R114 to R118). -/

namespace Sys2Proof

theorem wordXYN_of_family {op : Word} {f : Nibble} (h : family op = f) :
    wordXYN f (fieldX op) (fieldY op) (fieldN op) = op := by
  rw [← h, wordXYN_fields]

theorem wordXNN_of_family {op : Word} {f : Nibble} (h : family op = f) :
    wordXNN f (fieldX op) (fieldNN op) = op := by
  rw [← h, wordXNN_fields]

theorem wordNNN_of_family {op : Word} {f : Nibble} (h : family op = f) : wordNNN f (fieldNNN op) = op := by
  rw [← h, wordNNN_fields]

theorem Faithful.ok {op : Word} {i : Instr} (h : encode i = op) : Faithful op (.ok i) :=
  .inr ⟨i, rfl, h⟩

theorem Faithful.ite {op : Word} {p : Prop} [Decidable p] {r q : Except DecodeError Instr}
    (hr : p → Faithful op r) (hq : ¬p → Faithful op q) : Faithful op (if p then r else q) := by
  split
  · next h => exact hr h
  · next h => exact hq h

/-- One line for each family, in the order of the decoder; the sixteenth is what the fifteen tests leave. -/
theorem faithful_decodeWord (op : Word) : Faithful op (decodeWord op) := by
  unfold decodeWord
  refine .ite faithful_decodeFamily0 fun h0 => ?_
  refine .ite (fun h => .ok (wordNNN_of_family h)) fun h1 => ?_
  refine .ite (fun h => .ok (wordNNN_of_family h)) fun h2 => ?_
  refine .ite (fun h => .ok (wordXNN_of_family h)) fun h3 => ?_
  refine .ite (fun h => .ok (wordXNN_of_family h)) fun h4 => ?_
  refine .ite (fun h => .ok (wordXYN_of_family h)) fun h5 => ?_
  refine .ite (fun h => .ok (wordXNN_of_family h)) fun h6 => ?_
  refine .ite (fun h => .ok (wordXNN_of_family h)) fun h7 => ?_
  refine .ite faithful_decodeFamily8 fun h8 => ?_
  refine .ite (fun h => .ok (wordXYN_of_family h)) fun h9 => ?_
  refine .ite (fun h => .ok (wordNNN_of_family h)) fun hA => ?_
  refine .ite (fun h => .ok (wordNNN_of_family h)) fun hB => ?_
  refine .ite (fun h => .ok (wordXNN_of_family h)) fun hC => ?_
  refine .ite (fun h => .ok (wordXYN_of_family h)) fun hD => ?_
  refine .ite faithful_decodeFamilyE fun hE => ?_
  have hF : family op = 0xF#4 := by bv_omega
  exact faithful_decodeFamilyF hF

theorem encode_of_decodeWord {op : Word} {i : Instr} (h : decodeWord op = .ok i) : encode i = op := by
  rcases faithful_decodeWord op with he | ⟨j, hj, hop⟩
  · simp [he] at h
  · rw [hj] at h
    cases h
    exact hop

end Sys2Proof
end

section
/-! What an execute phase can do (41_cycle.md R175, R178): complete, or raise a fault that records the instruction's own
word. -/

namespace Sys2Proof.Machine

/-! ### The causes of a fetch and of an execute phase -/

@[simp] theorem Cause.code_ne_zero (c : Cause) : c.code ≠ 0 := by
  cases c <;> decide

theorem State.fetch_error_cause {s : State} {c : Cause} (h : s.fetch = .error c) : c.code.toNat ≤ 2 := by
  simp only [State.fetch] at h
  split at h
  · cases h
    decide
  · split at h
    · cases h
      decide
    · cases h

/-! ### The two outcomes -/

/-- An execute phase that raises no fault: from `s` to `t` nothing is written but what an instruction may write
(10_state.md R32). `STATUS`, `load_error`, the latches, the outputs and the host's turns are kept. -/
def Completes (s t : State) : Prop :=
  t = { s with
    v := t.v, i := t.i, pc := t.pc, stack := t.stack, sp := t.sp, dt := t.dt, st := t.st, mem := t.mem
    clearRequested := t.clearRequested, index := t.index }

theorem Completes.status {s t : State} (h : Completes s t) : t.status = s.status := by
  unfold Completes at h
  rw [h]

/-- The execute phase of the word `op` in `s` answers a state that completes it, or a fault raised on `s` itself. -/
def CompletesOrRaises (op : Word) (s : State) (o : Host.Outcome State Fault Refusal) : Prop :=
  (∃ t, o = .next t ∧ Completes s t) ∨
  (∃ (c : Cause) (info : Word), 2 < c.code.toNat ∧ o = .next (s.raise c op info))

theorem CompletesOrRaises.completes {op : Word} {s t : State} (h : Completes s t) :
    CompletesOrRaises op s (.next t) :=
  .inl ⟨t, rfl, h⟩

theorem CompletesOrRaises.raises {c : Cause} (h : 2 < c.code.toNat) (op info : Word) (s : State) :
    CompletesOrRaises op s (.next (s.raise c op info)) :=
  .inr ⟨c, info, h, rfl⟩

/-! ### The instructions with a fault -/

theorem completesOrRaises_ret (ign : Nibble) (s : State) :
    CompletesOrRaises (encode (.ret ign)) s (execRet ign s) := by
  rcases Nat.eq_zero_or_pos s.sp.val with h | h
  · simp only [execRet, State.pop_eq_none_iff.2 h]
    exact .raises (c := .stackUnderflow) (by decide) _ _ s
  · simp only [execRet, State.pop_of_pos h]
    exact .completes rfl

theorem completesOrRaises_call (nnn : Addr) (s : State) :
    CompletesOrRaises (encode (.call nnn)) s (execCall nnn s) := by
  rcases Nat.lt_or_ge s.sp.val 16 with h | h
  · simp only [execCall, State.push_of_lt h]
    exact .completes rfl
  · have hfull : s.sp.val = 16 := by omega
    simp only [execCall, State.push_eq_none_iff.2 hfull]
    exact .raises (c := .stackOverflow) (by decide) _ _ s

theorem completesOrRaises_drw (x y n : Nibble) (s : State) :
    CompletesOrRaises (encode (.drw x y n)) s (execDrw x y n s) := by
  unfold execDrw
  split
  · exact .raises (c := .memRange) (by decide) _ _ s
  · split
    · exact .raises (c := .drawBounds) (by decide) _ _ s
    · split
      · exact .raises (c := .indexBounds) (by decide) _ _ s
      · exact .completes rfl

theorem completesOrRaises_skp (x : Nibble) (s : State) :
    CompletesOrRaises (encode (.skp x)) s (execSkp x s) := by
  unfold execSkp
  split
  · exact .raises (c := .keyIndex) (by decide) _ _ s
  · exact .completes rfl

theorem completesOrRaises_sknp (x : Nibble) (s : State) :
    CompletesOrRaises (encode (.sknp x)) s (execSknp x s) := by
  unfold execSknp
  split
  · exact .raises (c := .keyIndex) (by decide) _ _ s
  · exact .completes rfl

theorem completesOrRaises_ldF (x : Nibble) (s : State) :
    CompletesOrRaises (encode (.ldF x)) s (execLdF x s) := by
  unfold execLdF
  split
  · exact .raises (c := .fontDigit) (by decide) _ _ s
  · exact .completes rfl

/-- A block store changes memory alone. -/
theorem completes_storeBlock {s t : State} {bytes : List Byte} (h : s.storeBlock bytes = some t) :
    Completes s t.advance := by
  obtain ⟨-, rfl⟩ := State.storeBlock_eq_some_iff.1 h
  rfl

theorem completesOrRaises_ldB (x : Nibble) (s : State) :
    CompletesOrRaises (encode (.ldB x)) s (execLdB x s) := by
  unfold execLdB
  split
  · exact .raises (c := .memRange) (by decide) _ _ s
  · next h => exact .completes (completes_storeBlock h)

theorem completesOrRaises_stRegs (x : Nibble) (s : State) :
    CompletesOrRaises (encode (.stRegs x)) s (execStRegs x s) := by
  unfold execStRegs
  split
  · exact .raises (c := .memRange) (by decide) _ _ s
  · next h => exact .completes (completes_storeBlock h)

theorem completes_setVs (s : State) (n : Nat) (bytes : List Byte) : Completes s (s.setVs n bytes).advance := by
  obtain ⟨v, hv⟩ : ∃ v, s.setVs n bytes = { s with v := v } := ⟨_, s.setVs_eq n bytes⟩
  rw [hv]
  rfl

theorem completesOrRaises_ldRegs (x : Nibble) (s : State) :
    CompletesOrRaises (encode (.ldRegs x)) s (execLdRegs x s) := by
  unfold execLdRegs
  split
  · exact .raises (c := .memRange) (by decide) _ _ s
  · exact .completes (completes_setVs s 0 _)

/-- Nine instructions can fault; each other one writes its registers, timers, memory or index and completes. -/
theorem exec_completesOrRaises (i : Instr) (s : State) : CompletesOrRaises (encode i) s (exec i s) := by
  cases i with
  | ret ign => exact completesOrRaises_ret ign s
  | call nnn => exact completesOrRaises_call nnn s
  | drw x y n => exact completesOrRaises_drw x y n s
  | skp x => exact completesOrRaises_skp x s
  | sknp x => exact completesOrRaises_sknp x s
  | ldF x => exact completesOrRaises_ldF x s
  | ldB x => exact completesOrRaises_ldB x s
  | stRegs x => exact completesOrRaises_stRegs x s
  | ldRegs x => exact completesOrRaises_ldRegs x s
  | _ => exact .completes rfl

end Sys2Proof.Machine
end

section
/-! A faulting step (00_scope.md R14). -/

namespace Sys2Proof.Safety
open Sys2Proof.Machine

/-- A request that halts a running block is a fault raised on the state of before the request: a fetch fault without an
opcode, or an execute fault with the opcode at `PC`. -/
theorem request_faults {keys : BitVec 16} {rnd : Byte} {s t : State} (hs : s.status.halted = false)
    (h : s.request keys rnd = .next t) (ht : t.status.halted = true) :
    ∃ (c : Cause) (op info : Word), t = s.raise c op info ∧
      ((c.code.toNat ≤ 2 ∧ op = 0) ∨ (2 < c.code.toNat ∧ op = opcodeAt s)) := by
  rcases s.request_cases keys rnd with
    ⟨hhalted, -⟩ | ⟨-, c, hfetch, hreq⟩ | ⟨-, op, e, -, -, hreq⟩ | ⟨-, op, i, hfetch, hdecode, hreq⟩
  case inl => simp [hs] at hhalted
  case inr.inl =>
    rw [hreq] at h
    cases h
    exact ⟨c, 0, s.pc, rfl, .inl ⟨State.fetch_error_cause hfetch, rfl⟩⟩
  case inr.inr.inl =>
    rw [hreq] at h
    cases h
    simp [hs] at ht
  case inr.inr.inr =>
    rcases exec_completesOrRaises i (s.ready keys rnd) with ⟨u, hexec, hu⟩ | ⟨c, info, hc, hexec⟩
    · have hrunning : u.status.halted = false := by rw [hu.status]; exact hs
      rw [hreq, hexec, finishStep_running s hrunning] at h
      cases h
      simp [hrunning] at ht
    · rw [hreq, hexec, finishStep_raise] at h
      cases h
      obtain ⟨-, -, hop⟩ := State.fetch_ok_inv hfetch
      exact ⟨c, encode i, info, rfl, .inr ⟨hc, (encode_of_decodeWord hdecode).trans hop⟩⟩

/-- Settles O11: the state after the step is the fault raised on the state before it (`request_faults`). -/
theorem faultingStepChangesOnlyStatus : Obligations.FaultingStepChangesOnlyStatus := by
  unfold Obligations.FaultingStepChangesOnlyStatus
  intro keys rnd s t hs h ht
  obtain ⟨c, op, info, rfl, ⟨hc, hop⟩ | ⟨hc, hop⟩⟩ := request_faults hs h ht
  · exact ⟨rfl, rfl, c.code_ne_zero, fun _ => hop, fun hgt => absurd hc (Nat.not_le.2 hgt)⟩
  · exact ⟨rfl, rfl, c.code_ne_zero, fun hle => absurd hle (Nat.not_le.2 hc), fun _ => hop⟩

end Sys2Proof.Safety
end

section
/-! A reset with a blob that fits (10_state.md R48, 70_reset_and_hazards.md R360 to R362). -/

namespace Sys2Proof.Machine

/-! ### What each region of memory holds after the three writes of a reset -/

theorem Mem.read_image_prog (memInit : Nat → Byte) {prog : List Byte} {k : Nat} (hk : k < prog.length) :
    Mem.read (Mem.image memInit prog) (Config.progBase + k) = prog.getD k 0 := by
  rw [Mem.image, Mem.read_writeBytes, if_pos (by omega), Nat.add_sub_cancel_left]

/-- The font lies below the program, which leaves it. -/
theorem Mem.read_image_font (memInit : Nat → Byte) (prog : List Byte) {a : Nat} (ha : a < fontData.length) :
    Mem.read (Mem.image memInit prog) a = fontData.getD a 0 := by
  have hbelow : a < Config.progBase := ha.trans (by decide)
  have hfont : Config.fontBase ≤ a ∧ a < Config.fontBase + fontData.length := by
    simpa [Config.fontBase] using ha
  rw [Mem.image, Mem.read_writeBytes, if_neg (by omega), Mem.read_writeBytes, if_pos hfont]
  rfl

/-- Neither the font nor the program is written at `a`. -/
theorem Mem.read_image_memInit (memInit : Nat → Byte) (prog : List Byte) {a : Nat} (hfont : fontData.length ≤ a)
    (hprog : a < Config.progBase ∨ Config.progBase + prog.length ≤ a) (ha : a < Config.memSize) :
    Mem.read (Mem.image memInit prog) a = memInit a := by
  have hnotFont : ¬(Config.fontBase ≤ a ∧ a < Config.fontBase + fontData.length) := by
    simpa [Config.fontBase] using hfont
  rw [Mem.image, Mem.read_writeBytes, if_neg (by omega), Mem.read_writeBytes, if_neg hnotFont,
    Mem.read_writeBytes, if_pos (by simpa using ha)]
  simp [ha]

/-! ### The state after the reset -/

theorem State.hostReset_of_fits (s other : State) (memInit : Nat → Byte) {prog : List Byte}
    (h : prog.length ≤ Config.progMax) :
    s.hostReset memInit prog other =
      { State.reset with mem := Mem.image memInit prog, schedule := s.schedule, turn := s.turn } :=
  if_pos (decide_eq_true h)

theorem State.readByte_hostReset (s other : State) (memInit : Nat → Byte) {prog : List Byte}
    (h : prog.length ≤ Config.progMax) (a : Nat) :
    (s.hostReset memInit prog other).readByte a = Mem.read (Mem.image memInit prog) a := by
  rw [State.hostReset_of_fits s other memInit h]
  rfl

theorem State.getV_hostReset (s other : State) (memInit : Nat → Byte) {prog : List Byte}
    (h : prog.length ≤ Config.progMax) (z : Nibble) : (s.hostReset memInit prog other).getV z = 0 := by
  rw [State.hostReset_of_fits s other memInit h]
  exact Vector.getElem_replicate z.isLt

/-! ### The glyphs of the font -/

/-- The sixteen glyphs of 10_state.md R38, one list of rows for each digit. -/
def glyphs : List (List Byte) :=
  [[0xF0, 0x90, 0x90, 0x90, 0xF0], [0x20, 0x60, 0x20, 0x20, 0x70], [0xF0, 0x10, 0xF0, 0x80, 0xF0],
   [0xF0, 0x10, 0xF0, 0x10, 0xF0], [0x90, 0x90, 0xF0, 0x10, 0x10], [0xF0, 0x80, 0xF0, 0x10, 0xF0],
   [0xF0, 0x80, 0xF0, 0x90, 0xF0], [0xF0, 0x10, 0x20, 0x40, 0x40]] ++
  [[0xF0, 0x90, 0xF0, 0x90, 0xF0], [0xF0, 0x90, 0xF0, 0x10, 0xF0], [0xF0, 0x90, 0xF0, 0x90, 0x90],
   [0xE0, 0x90, 0xE0, 0x90, 0xE0], [0xF0, 0x80, 0x80, 0x80, 0xF0], [0xE0, 0x90, 0x90, 0x90, 0xE0],
   [0xF0, 0x80, 0xF0, 0x80, 0xF0], [0xF0, 0x80, 0xF0, 0x80, 0x80]]

/-- The 80 bytes of the font, one by one. -/
theorem fontData_getD_glyph :
    ∀ (d : Fin 16) (r : Fin 5), fontData.getD (5 * d + r) 0 = (glyphs.getD d []).getD r 0 := by
  decide

end Sys2Proof.Machine

namespace Sys2Proof.Reset
open Sys2Proof.Machine

/-- Settles O49: the program and the bytes outside it and the font are read from the memory image; everything else is
as in `State.reset`. -/
theorem resetLoadsTheProgram : Obligations.ResetLoadsTheProgram := by
  unfold Obligations.ResetLoadsTheProgram
  intro s other memInit prog hfits
  refine ⟨_, rfl, fun k hk => ?_, fun a hfont hprog ha => ?_, ?_⟩
  · rw [State.readByte_hostReset s other memInit hfits]
    exact Mem.read_image_prog memInit hk
  · rw [State.readByte_hostReset s other memInit hfits]
    exact Mem.read_image_memInit memInit prog hfont hprog ha
  · have hv := State.getV_hostReset s other memInit hfits
    rw [State.hostReset_of_fits s other memInit hfits] at hv ⊢
    exact ⟨rfl, hv, rfl, rfl, rfl, rfl, rfl, fun _ => rfl, rfl, rfl, rfl, rfl⟩

/-- Settles O50: row `r` of digit `d` lies in the font region of the memory image. -/
theorem resetLoadsTheFont : Obligations.ResetLoadsTheFont := by
  unfold Obligations.ResetLoadsTheFont
  intro s other memInit prog hfits
  refine ⟨_, rfl, fun d r hd hr => ?_⟩
  have hfont : 5 * d + r < fontData.length := by
    rw [length_fontData]
    omega
  rw [State.readByte_hostReset s other memInit hfits, Mem.read_image_font memInit prog hfont]
  exact fontData_getD_glyph ⟨d, hd⟩ ⟨r, hr⟩

end Sys2Proof.Reset
end

section
/-! The byte order of a fetch, and the fetch of stored bytes (20_memory.md R80, R92; 41_cycle.md R172). -/

namespace Sys2Proof.Machine

/-! ### A block stored at `I` -/

theorem State.storeBlock_of_fits {s : State} {bytes : List Byte} (h : s.i.toNat + bytes.length ≤ Config.memSize) :
    s.storeBlock bytes = some (s.setMem (Mem.writeBytes s.mem s.i.toNat bytes)) :=
  State.storeBlock_eq_some_iff.2 ⟨.inr h, rfl⟩

/-- The memory after a store at `I` holds the stored bytes from there up. -/
theorem Mem.read_of_storeBlock {s t : State} {bytes : List Byte} (h : s.storeBlock bytes = some t) {k : Nat}
    (hk : k < bytes.length) : Mem.read t.mem (s.i.toNat + k) = bytes[k] := by
  obtain ⟨-, rfl⟩ := State.storeBlock_eq_some_iff.1 h
  have hread := Mem.read_writeBytes s.mem s.i.toNat (s.i.toNat + k) bytes
  rwa [if_pos (by omega), Nat.add_sub_cancel_left, List.getD_eq_getElem bytes 0 hk] at hread

theorem exec_ldB_of_storeBlock {x : Nibble} {s t : State} (h : s.storeBlock (bcdDigits (s.getV x)) = some t) :
    exec (.ldB x) s = .next t.advance := by
  change execLdB x s = _
  simp [execLdB, h]

theorem exec_stRegs_of_storeBlock {x : Nibble} {s t : State} (h : s.storeBlock (s.getVs 0 (x.toNat + 1)) = some t) :
    exec (.stRegs x) s = .next t.advance := by
  change execStRegs x s = _
  simp [execStRegs, h]

/-! ### The digits of a byte -/

@[simp] theorem length_bcdDigits (b : Byte) : (bcdDigits b).length = 3 := rfl

theorem toNat_digit {n : Nat} (h : n < 10) : (BitVec.ofNat 8 n).toNat = n :=
  Nat.mod_eq_of_lt (by omega)

theorem toNat_bcdDigits_hundreds (b : Byte) : ((bcdDigits b)[0]'(by simp)).toNat = b.toNat / 100 :=
  toNat_digit (by have := b.isLt; omega)

theorem toNat_bcdDigits_tens (b : Byte) : ((bcdDigits b)[1]'(by simp)).toNat = b.toNat / 10 % 10 :=
  toNat_digit (by omega)

theorem toNat_bcdDigits_units (b : Byte) : ((bcdDigits b)[2]'(by simp)).toNat = b.toNat % 10 :=
  toNat_digit (by omega)

end Sys2Proof.Machine

namespace Sys2Proof.Safety
open Sys2Proof.Machine

theorem fetch_of_fetchable {s : State} (h : Fetchable s) : s.fetch = .ok (opcodeAt s) := by
  obtain ⟨hlow, hhigh, heven⟩ := h
  refine State.fetch_ok (by simp only [Config.progBase, Config.lastFetch]; omega) ?_
  simp [BitVec.getElem_eq_testBit_toNat, heven]

theorem toNat_opcodeAt (s : State) :
    (opcodeAt s).toNat = 256 * (s.readByte s.pc.toNat).toNat + (s.readByte (s.pc.toNat + 1)).toNat :=
  toNat_composeWord _ _

/-- A word with the value of the two bytes at `PC`, high byte first, is the opcode there. -/
theorem eq_opcodeAt {s : State} {op : Word}
    (h : op.toNat = 256 * (s.readByte s.pc.toNat).toNat + (s.readByte (s.pc.toNat + 1)).toNat) : op = opcodeAt s :=
  BitVec.eq_of_toNat_eq (h.trans (toNat_opcodeAt s).symm)

/-- A fetch at byte `k` of a block stored at `I`, in any state with the memory that the store left. -/
theorem fetch_of_storeBlock {s t u : State} {bytes : List Byte} (h : s.storeBlock bytes = some t)
    (hmem : u.mem = t.mem) (hu : Fetchable u) {k : Nat} (hk : k + 1 < bytes.length)
    (hpc : u.pc.toNat = s.i.toNat + k) :
    ∃ op, u.fetch = .ok op ∧ op.toNat = 256 * bytes[k].toNat + bytes[k + 1].toNat := by
  have hhi : u.readByte u.pc.toNat = bytes[k] := by
    rw [State.readByte, hmem, hpc, Mem.read_of_storeBlock h]
  have hlo : u.readByte (u.pc.toNat + 1) = bytes[k + 1] := by
    rw [State.readByte, hmem, hpc, Nat.add_assoc, Mem.read_of_storeBlock h hk]
  exact ⟨opcodeAt u, fetch_of_fetchable hu, by rw [toNat_opcodeAt, hhi, hlo]⟩

/-- Settles O59: the fetch gives `opcodeAt`, which is the only word with that value. -/
theorem fetchIsBigEndian : Obligations.FetchIsBigEndian := by
  unfold Obligations.FetchIsBigEndian
  constructor
  · intro s op hs hop
    rw [eq_opcodeAt hop, fetch_of_fetchable hs]
  · intro keys rnd s op hrunning hs hop
    rw [eq_opcodeAt hop]
    exact State.request_fetched hrunning (fetch_of_fetchable hs)

/-- Settles O33: both instructions store a block at `I`, and neighbouring bytes of it are fetched as one word
(`fetch_of_storeBlock`). -/
theorem storedBytesAreFetched : Obligations.StoredBytesAreFetched := by
  unfold Obligations.StoredBytesAreFetched
  constructor
  · intro x s hfits
    have hstore := State.storeBlock_of_fits (s := s) (bytes := s.getVs 0 (x.toNat + 1))
      (by simp only [State.length_getVs, Config.memSize]; omega)
    refine ⟨_, exec_stRegs_of_storeBlock hstore, fun k u hk hmem hpc hu => ?_⟩
    obtain ⟨op, hfetch, hop⟩ := fetch_of_storeBlock hstore hmem hu (k := k) (by simpa using hk) hpc
    exact ⟨op, hfetch, by simpa only [State.getElem_getVs, Nat.zero_add] using hop⟩
  · intro x s hfits
    have hstore := State.storeBlock_of_fits (s := s) (bytes := bcdDigits (s.getV x))
      (by simp only [length_bcdDigits, Config.memSize]; omega)
    refine ⟨_, exec_ldB_of_storeBlock hstore, fun u hmem hu => ⟨fun hpc => ?_, fun hpc => ?_⟩⟩
    · rw [← toNat_bcdDigits_hundreds, ← toNat_bcdDigits_tens]
      exact fetch_of_storeBlock hstore hmem hu (k := 0) (by simp) hpc
    · rw [← toNat_bcdDigits_tens, ← toNat_bcdDigits_units]
      exact fetch_of_storeBlock hstore hmem hu (k := 1) (by simp) hpc

end Sys2Proof.Safety
end

section
/-! `INV` as one equivalence, and the operations on the pixel index under it (40_pixel_index.md R140 to R147). -/

namespace Sys2Proof.Machine

/-! ### Active cells -/

theorem PixelIndex.active_eq_false_iff {p : PixelIndex} {c : Coord} : p.active c = false ↔ p.cellAt c = none := by
  simp [PixelIndex.active]

theorem PixelIndex.active_eq_true_iff {p : PixelIndex} {c : Coord} :
    p.active c = true ↔ ∃ k, p.cellAt c = some k :=
  Option.isSome_iff_exists

/-! ### `INV` (10_state.md R43) -/

/-- `CELL` and `LIST` are inverse to each other. -/
theorem PixelIndex.inv_iff {p : PixelIndex} :
    p.Inv ↔ ∀ (c : Coord) (k : Nat), p.cellAt c = some k ↔ p.list[k]? = some c := by
  constructor
  · rintro ⟨hlisted, hcell⟩ c k
    refine ⟨fun h => (hlisted c k h).2, fun h => hcell k c ?_ h⟩
    exact (List.getElem?_eq_some_iff.1 h).1
  · intro h
    refine ⟨fun c k hc => ⟨?_, (h c k).1 hc⟩, fun k c _ hk => (h c k).2 hk⟩
    exact (List.getElem?_eq_some_iff.1 ((h c k).1 hc)).1

theorem PixelIndex.Inv.cellAt_eq_some_iff {p : PixelIndex} (h : p.Inv) {c : Coord} {k : Nat} :
    p.cellAt c = some k ↔ p.list[k]? = some c :=
  PixelIndex.inv_iff.1 h c k

theorem PixelIndex.Inv.mem_list_iff {p : PixelIndex} (h : p.Inv) {c : Coord} :
    c ∈ p.list ↔ p.active c = true := by
  rw [List.mem_iff_getElem?, PixelIndex.active_eq_true_iff]
  exact exists_congr fun k => h.cellAt_eq_some_iff.symm

theorem PixelIndex.Inv.nodup_list {p : PixelIndex} (h : p.Inv) : p.list.Nodup := by
  refine List.nodup_iff_getElem?_ne_getElem?.2 fun i j hij hj heq => ?_
  have hj' : p.list[j]? = some p.list[j] := List.getElem?_eq_getElem hj
  have hi := h.cellAt_eq_some_iff.2 (heq.trans hj')
  rw [h.cellAt_eq_some_iff.2 hj'] at hi
  exact absurd (Option.some.inj hi) hij.ne'

/-- Distinct cells are at most the 2048 cells of the grid. -/
theorem Coord.length_le_of_nodup {cells : List Coord} (h : cells.Nodup) : cells.length ≤ 2048 := by
  have hkeys : (cells.map Coord.index).Nodup := h.map fun _ _ => Coord.index_inj
  have hsub : cells.map Coord.index ⊆ List.range 2048 := by
    intro k hk
    obtain ⟨c, -, rfl⟩ := List.mem_map.1 hk
    exact List.mem_range.2 c.index_lt
  simpa using (hkeys.subperm hsub).length_le

/-- While a cell is inactive the list has a free slot. -/
theorem PixelIndex.Inv.len_lt {p : PixelIndex} (h : p.Inv) {c : Coord} (hc : p.active c = false) :
    p.len < 2048 := by
  have hnew : c ∉ p.list := by simp [h.mem_list_iff, hc]
  exact Coord.length_le_of_nodup (List.nodup_cons.2 ⟨hnew, h.nodup_list⟩)

/-! ### activate (R142) -/

theorem PixelIndex.active_activateCell (p : PixelIndex) (c d : Coord) :
    (p.activateCell c).active d = (d == c || p.active d) := by
  cases hc : p.cellAt c with
  | some k =>
    rw [PixelIndex.activateCell_of_some hc]
    by_cases hd : d = c
    · simp [hd, PixelIndex.active, hc]
    · simp [hd]
  | none =>
    simp only [PixelIndex.active, PixelIndex.cellAt_activateCell hc]
    by_cases hd : d = c <;> simp [hd]

theorem PixelIndex.Inv.activateCell {p : PixelIndex} (h : p.Inv) (c : Coord) : (p.activateCell c).Inv := by
  cases hc : p.cellAt c with
  | some k => rwa [PixelIndex.activateCell_of_some hc]
  | none =>
    refine PixelIndex.inv_iff.2 fun d k => ?_
    have hk : p.list[k]? ≠ some c := by simp [← h.cellAt_eq_some_iff, hc]
    have hlen : p.len = p.list.length := rfl
    rw [PixelIndex.cellAt_activateCell hc, PixelIndex.list_activateCell hc]
    by_cases hd : d = c
    · subst hd
      grind
    · grind [h.cellAt_eq_some_iff (c := d) (k := k)]

/-! ### deactivate (R143) -/

/-- The last entry `m` takes the slot of the cell, and the list loses its last slot. Where the cell is the last entry
itself this is the truncation. -/
theorem PixelIndex.Inv.deactivateCell_of_some {p : PixelIndex} (h : p.Inv) {c : Coord} {loc : Nat}
    (hc : p.cellAt c = some loc) :
    ∃ m, p.list[p.len - 1]? = some m ∧ (p.deactivateCell c).list = (p.list.set loc m).dropLast ∧
      ∀ d, (p.deactivateCell c).cellAt d = if d = c then none else if d = m then some loc else p.cellAt d := by
  obtain ⟨hloc, hentry⟩ := List.getElem?_eq_some_iff.1 (h.cellAt_eq_some_iff.1 hc)
  by_cases hlast : loc + 1 = p.len
  · refine ⟨c, ?_, ?_, fun d => ?_⟩
    · rw [← hlast]
      exact h.cellAt_eq_some_iff.1 hc
    · rw [PixelIndex.deactivateCell_last hc hlast, ← hentry, List.set_getElem_self]
    · rw [PixelIndex.cellAt_deactivateCell_last hc hlast]
      split <;> rfl
  · have hm : p.list.getLast? = some (p.list[p.list.length - 1]'(by omega)) := by
      rw [List.getLast?_eq_getElem?, List.getElem?_eq_getElem]
    refine ⟨_, ?_, by rw [PixelIndex.deactivateCell_swap hc hlast hm],
      PixelIndex.cellAt_deactivateCell_swap hc hlast hm⟩
    exact List.getElem?_eq_getElem _

theorem PixelIndex.Inv.active_deactivateCell {p : PixelIndex} (h : p.Inv) (c d : Coord) :
    (p.deactivateCell c).active d = (d != c && p.active d) := by
  cases hc : p.cellAt c with
  | none =>
    rw [PixelIndex.deactivateCell_of_none hc]
    by_cases hd : d = c
    · simp [hd, PixelIndex.active, hc]
    · simp [hd]
  | some loc =>
    obtain ⟨m, hm, -, hcell⟩ := h.deactivateCell_of_some hc
    have hmActive : (p.cellAt m).isSome = true := by rw [h.cellAt_eq_some_iff.2 hm]; rfl
    simp only [PixelIndex.active, hcell]
    by_cases hd : d = c
    · simp [hd]
    · by_cases hdm : d = m
      · subst hdm
        simp [hd, hmActive]
      · simp [hd, hdm]

theorem PixelIndex.Inv.deactivateCell {p : PixelIndex} (h : p.Inv) (c : Coord) : (p.deactivateCell c).Inv := by
  cases hc : p.cellAt c with
  | none => rwa [PixelIndex.deactivateCell_of_none hc]
  | some loc =>
    obtain ⟨m, hm, hlist, hcell⟩ := h.deactivateCell_of_some hc
    have hmCell : p.cellAt m = some (p.len - 1) := h.cellAt_eq_some_iff.2 hm
    have hlen : p.len = p.list.length := rfl
    have hentry : p.list[loc]? = some c := h.cellAt_eq_some_iff.1 hc
    refine PixelIndex.inv_iff.2 fun d k => ?_
    have hd := h.cellAt_eq_some_iff (c := d) (k := k)
    rw [hcell, hlist, List.getElem?_dropLast, List.getElem?_set, List.length_set]
    -- `c` had the slot `loc` alone, `m` the last slot alone, and another cell keeps its slot.
    by_cases hdc : d = c
    · grind
    · by_cases hdm : d = m
      · grind
      · grind

/-! ### clear (R144) -/

theorem PixelIndex.Inv.cellAt_clear {p : PixelIndex} (h : p.Inv) (d : Coord) : p.clear.cellAt d = none := by
  rw [PixelIndex.cellAt_clear]
  split
  · rfl
  · next hd => simpa [h.mem_list_iff, PixelIndex.active] using hd

theorem PixelIndex.Inv.clear {p : PixelIndex} (h : p.Inv) : p.clear.Inv :=
  PixelIndex.inv_iff.2 fun d k => by simp [h.cellAt_clear d]

end Sys2Proof.Machine

namespace Sys2Proof.Safety
open Sys2Proof.Machine

/-- Settles O46: each operation keeps `INV`, and makes its own cell active or inactive. -/
theorem indexOperationsKeepTheInvariant : Obligations.IndexOperationsKeepTheInvariant := by
  unfold Obligations.IndexOperationsKeepTheInvariant
  intro p c h
  exact ⟨h.activateCell c, p.active_activateCell c, h.deactivateCell c, h.active_deactivateCell c, h.clear,
    fun d => PixelIndex.active_eq_false_iff.2 (h.cellAt_clear d), rfl⟩

/-- Settles O60: a lemma for each operation and case; the swap of `deactivate` is
`PixelIndex.Inv.deactivateCell_of_some`. -/
theorem indexOperationsFollowTheirRules : Obligations.IndexOperationsFollowTheirRules := by
  unfold Obligations.IndexOperationsFollowTheirRules
  refine ⟨fun p c => PixelIndex.active_eq_false_iff, fun p c => ?onGrid, fun p c hc => ?activateActive,
    fun p c h hc => ?activateInactive, fun p c hc => ?deactivateInactive, fun p c loc h hc hlast => ?deactivateLast,
    fun p c loc h hc hloc => ?deactivateSwap, fun p h => ⟨rfl, h.cellAt_clear⟩, fun s => ?ports⟩
  case onGrid => simp [PixelIndex.isActive, PixelIndex.activate, PixelIndex.deactivate]
  case activateActive =>
    obtain ⟨k, hk⟩ := PixelIndex.active_eq_true_iff.1 hc
    exact PixelIndex.activateCell_of_some hk
  case activateInactive =>
    have hnone := PixelIndex.active_eq_false_iff.1 hc
    exact ⟨h.len_lt hc, PixelIndex.list_activateCell hnone, PixelIndex.cellAt_activateCell hnone⟩
  case deactivateInactive => exact PixelIndex.deactivateCell_of_none (PixelIndex.active_eq_false_iff.1 hc)
  case deactivateLast =>
    exact ⟨by rw [PixelIndex.deactivateCell_last hc hlast], PixelIndex.cellAt_deactivateCell_last hc hlast⟩
  case deactivateSwap =>
    obtain ⟨m, hm, hlist, hcell⟩ := h.deactivateCell_of_some hc
    have hlen : p.len = p.list.length := rfl
    refine ⟨m, ?_, hm, by simp [PixelIndex.len, hlist], fun k hk => ?_, hcell⟩
    · rintro rfl
      have hmCell := h.cellAt_eq_some_iff.2 hm
      rw [hc] at hmCell
      have := Option.some.inj hmCell
      omega
    · rw [hlist, List.getElem?_dropLast, List.getElem?_set]
      grind
  case ports => exact ⟨rfl, fun k hk => List.getElem?_eq_getElem hk⟩

/-- Settles O47: an operation on coordinates answers exactly where they name a cell. -/
theorem indexOperationsRefuseCoordinatesOffTheGrid : Obligations.IndexOperationsRefuseCoordinatesOffTheGrid := by
  unfold Obligations.IndexOperationsRefuseCoordinatesOffTheGrid
  intro p x y
  have honGrid := Coord.at?_eq_none_iff (x := x) (y := y)
  exact ⟨Option.map_eq_none_iff.trans honGrid, Option.map_eq_none_iff.trans honGrid,
    Option.map_eq_none_iff.trans honGrid⟩

end Sys2Proof.Safety
end

section
/-! What an execute phase and a request do to the pixel index (40_pixel_index.md R148, 45_draw.md R282, R284). -/

namespace Sys2Proof.Machine

/-! ### The cells a draw toggles -/

/-- Coordinates on the grid are those of cells. -/
theorem exists_coords_of_onGrid {targets : List (Nat × Nat)} (h : ∀ b ∈ targets, b.1 < 64 ∧ b.2 < 32) :
    ∃ cells : List Coord, cells.map (fun c => (c.x.val, c.y.val)) = targets := by
  have hmem : targets ∈ Set.range (List.map fun c : Coord => (c.x.val, c.y.val)) := by
    rw [Set.range_list_map]
    exact fun b hb => ⟨⟨⟨b.1, (h b hb).1⟩, ⟨b.2, (h b hb).2⟩⟩, rfl⟩
  exact hmem

/-- Once no 1 bit of the sprite falls off the grid, the draw toggles cells of the grid and meets no coordinate that the
index refuses. -/
theorem drawCells_of_onGrid {x0 y0 : Nat} {bits : List (Nat × Nat)} (h : bits.find? (offGrid x0 y0) = none)
    (p : PixelIndex) :
    ∃ (cells : List Coord) (hit : Bool), drawCells (bits.map (fun b => (x0 + b.2, y0 + b.1))) p false =
      .ok (cells.foldl PixelIndex.toggleCell p, hit) := by
  have honGrid : ∀ b ∈ bits.map (fun b => (x0 + b.2, y0 + b.1)), b.1 < 64 ∧ b.2 < 32 := by
    intro b hb
    obtain ⟨rc, hrc, rfl⟩ := List.mem_map.1 hb
    have hin := List.find?_eq_none.1 h rc hrc
    simp only [offGrid, Bool.or_eq_true, decide_eq_true_eq] at hin
    exact ⟨by omega, by omega⟩
  obtain ⟨cells, hcells⟩ := exists_coords_of_onGrid honGrid
  obtain ⟨hit, hdraw⟩ := drawCells_coords cells p false
  exact ⟨cells, hit, hcells ▸ hdraw⟩

/-! ### The execute phase -/

theorem Cause.code_ne_nine {c : Cause} (h : c ≠ .indexBounds) : c.code ≠ 9 := by
  cases c with
  | indexBounds => exact absurd rfl h
  | _ => decide

/-- What the execute phase of `i`, from `s` to `t`, does to the pixel index and `STATUS`. -/
inductive IndexEffect : Instr → State → State → Prop where
  | kept {i : Instr} {s t : State} : t.index = s.index → t.status = s.status → IndexEffect i s t
  | raised {i : Instr} {s : State} {c : Cause} (op info : Word) :
      c ≠ .indexBounds → IndexEffect i s (s.raise c op info)
  | cleared {ign : Nibble} {s t : State} : t.index = s.index.clear → t.status = s.status → IndexEffect (.cls ign) s t
  | drawn {x y n : Nibble} {s t : State} (cells : List Coord) :
      t.index = cells.foldl PixelIndex.toggleCell s.index → t.status = s.status → IndexEffect (.drw x y n) s t

/-- The outcome is a next state, reached with that effect. -/
def HasIndexEffect (i : Instr) (s : State) (o : Host.Outcome State Fault Refusal) : Prop :=
  ∃ t, o = .next t ∧ IndexEffect i s t

theorem HasIndexEffect.kept {i : Instr} {s t : State} (hindex : t.index = s.index) (hstatus : t.status = s.status) :
    HasIndexEffect i s (.next t) :=
  ⟨t, rfl, .kept hindex hstatus⟩

theorem HasIndexEffect.raised {i : Instr} {s : State} {c : Cause} (hc : c ≠ .indexBounds) (op info : Word) :
    HasIndexEffect i s (.next (s.raise c op info)) :=
  ⟨_, rfl, .raised op info hc⟩

theorem hasIndexEffect_ret (ign : Nibble) (s : State) : HasIndexEffect (.ret ign) s (execRet ign s) := by
  rcases Nat.eq_zero_or_pos s.sp.val with h | h
  · simp only [execRet, State.pop_eq_none_iff.2 h]
    exact .raised (c := .stackUnderflow) (by decide) _ _
  · simp only [execRet, State.pop_of_pos h]
    exact .kept rfl rfl

theorem hasIndexEffect_call (nnn : Addr) (s : State) : HasIndexEffect (.call nnn) s (execCall nnn s) := by
  rcases Nat.lt_or_ge s.sp.val 16 with h | h
  · simp only [execCall, State.push_of_lt h]
    exact .kept rfl rfl
  · have hfull : s.sp.val = 16 := by omega
    simp only [execCall, State.push_eq_none_iff.2 hfull]
    exact .raised (c := .stackOverflow) (by decide) _ _

theorem hasIndexEffect_skp (x : Nibble) (s : State) : HasIndexEffect (.skp x) s (execSkp x s) := by
  unfold execSkp
  split
  · exact .raised (c := .keyIndex) (by decide) _ _
  · exact .kept rfl rfl

theorem hasIndexEffect_sknp (x : Nibble) (s : State) : HasIndexEffect (.sknp x) s (execSknp x s) := by
  unfold execSknp
  split
  · exact .raised (c := .keyIndex) (by decide) _ _
  · exact .kept rfl rfl

theorem hasIndexEffect_ldF (x : Nibble) (s : State) : HasIndexEffect (.ldF x) s (execLdF x s) := by
  unfold execLdF
  split
  · exact .raised (c := .fontDigit) (by decide) _ _
  · exact .kept rfl rfl

theorem HasIndexEffect.storeBlock {i : Instr} {s t : State} {bytes : List Byte} (h : s.storeBlock bytes = some t) :
    HasIndexEffect i s (.next t.advance) := by
  obtain ⟨-, rfl⟩ := State.storeBlock_eq_some_iff.1 h
  exact .kept rfl rfl

theorem hasIndexEffect_ldB (x : Nibble) (s : State) : HasIndexEffect (.ldB x) s (execLdB x s) := by
  unfold execLdB
  split
  · exact .raised (c := .memRange) (by decide) _ _
  · next h => exact .storeBlock h

theorem hasIndexEffect_stRegs (x : Nibble) (s : State) : HasIndexEffect (.stRegs x) s (execStRegs x s) := by
  unfold execStRegs
  split
  · exact .raised (c := .memRange) (by decide) _ _
  · next h => exact .storeBlock h

theorem hasIndexEffect_ldRegs (x : Nibble) (s : State) : HasIndexEffect (.ldRegs x) s (execLdRegs x s) := by
  unfold execLdRegs
  split
  · exact .raised (c := .memRange) (by decide) _ _
  · rw [State.setVs_eq]
    exact .kept rfl rfl

theorem hasIndexEffect_drw (x y n : Nibble) (s : State) : HasIndexEffect (.drw x y n) s (execDrw x y n s) := by
  unfold execDrw
  split
  · exact .raised (c := .memRange) (by decide) _ _
  · split
    · exact .raised (c := .drawBounds) (by decide) _ _
    · next honGrid =>
      obtain ⟨cells, hit, hdraw⟩ := drawCells_of_onGrid honGrid s.index
      rw [hdraw]
      exact ⟨_, rfl, .drawn cells rfl rfl⟩

/-- `00E0` and `DXYN` write the index; each other instruction keeps it, and the faults are not INDEX_BOUNDS. -/
theorem exec_hasIndexEffect (i : Instr) (s : State) : HasIndexEffect i s (exec i s) := by
  cases i with
  | cls ign => exact ⟨_, rfl, .cleared rfl rfl⟩
  | ret ign => exact hasIndexEffect_ret ign s
  | call nnn => exact hasIndexEffect_call nnn s
  | drw x y n => exact hasIndexEffect_drw x y n s
  | skp x => exact hasIndexEffect_skp x s
  | sknp x => exact hasIndexEffect_sknp x s
  | ldF x => exact hasIndexEffect_ldF x s
  | ldB x => exact hasIndexEffect_ldB x s
  | stRegs x => exact hasIndexEffect_stRegs x s
  | ldRegs x => exact hasIndexEffect_ldRegs x s
  | _ => exact .kept rfl rfl

theorem indexEffect_of_exec {i : Instr} {s t : State} (h : exec i s = .next t) : IndexEffect i s t := by
  obtain ⟨u, hu, heffect⟩ := exec_hasIndexEffect i s
  rw [h] at hu
  exact Host.Outcome.next.inj hu ▸ heffect

/-- The index keeps `P` where `clear` and toggling a cell do. -/
theorem IndexEffect.preserves {P : PixelIndex → Prop} (hclear : ∀ p, P p → P p.clear)
    (htoggle : ∀ p c, P p → P (p.toggleCell c)) {i : Instr} {s t : State} (h : IndexEffect i s t)
    (hs : P s.index) : P t.index := by
  cases h with
  | kept hindex _ => rwa [hindex]
  | raised op info _ => exact hs
  | cleared hindex _ => rw [hindex]; exact hclear _ hs
  | drawn cells hindex _ => rw [hindex]; exact List.foldlRecOn cells _ hs fun p hp c _ => htoggle p c hp

/-! ### A request -/

theorem finishStep_index {s t : State} {o : Host.Outcome State Fault Refusal} (h : finishStep s o = .next t) :
    ∃ u, o = .next u ∧ t.index = u.index := by
  cases o with
  | next u =>
    refine ⟨u, rfl, ?_⟩
    rw [← Host.Outcome.next.inj h]
    split <;> rfl
  | fault r => cases h
  | refused r => cases h

/-- A request keeps the index, or leaves it as the execute phase of the fetched instruction does. -/
theorem State.request_index {s t : State} {keys : BitVec 16} {rnd : Byte} (h : s.request keys rnd = .next t) :
    t.index = s.index ∨
    (s.status.halted = false ∧ ∃ op i u, s.fetch = .ok op ∧ decodeWord op = .ok i ∧
      exec i (s.ready keys rnd) = .next u ∧ t.index = u.index) := by
  rcases s.request_cases keys rnd with
    ⟨-, hreq⟩ | ⟨-, c, -, hreq⟩ | ⟨-, op, e, -, -, hreq⟩ | ⟨hrunning, op, i, hfetch, hdecode, hreq⟩
  case inr.inr.inr =>
    obtain ⟨u, hexec, hindex⟩ := finishStep_index (hreq ▸ h)
    exact .inr ⟨hrunning, op, i, u, hfetch, hdecode, hexec, hindex⟩
  all_goals
    rw [hreq] at h
    cases h
    exact .inl rfl

/-! ### Drawing keeps `INV` -/

theorem PixelIndex.Inv.toggleCell {p : PixelIndex} (h : p.Inv) (c : Coord) : (p.toggleCell c).Inv := by
  unfold PixelIndex.toggleCell
  split
  · exact h.deactivateCell c
  · exact h.activateCell c

end Sys2Proof.Machine

namespace Sys2Proof.Safety
open Sys2Proof.Machine

/-! ### The index through an instruction, a request and a step -/

theorem exec_index_ne {i : Instr} {s t : State} (h : exec i s = .next t) (hne : t.index ≠ s.index) :
    (∃ ign, i = .cls ign) ∨ ∃ x y n, i = .drw x y n := by
  cases indexEffect_of_exec h with
  | kept hindex _ => exact absurd hindex hne
  | raised op info _ => exact absurd rfl hne
  | cleared _ _ => exact .inl ⟨_, rfl⟩
  | drawn _ _ _ => exact .inr ⟨_, _, _, rfl⟩

theorem exec_keeps_indexConsistent {i : Instr} {s t : State} (h : exec i s = .next t) (hs : IndexConsistent s) :
    IndexConsistent t := by
  obtain ⟨hwf, hinv⟩ := hs
  have heffect := indexEffect_of_exec h
  exact ⟨heffect.preserves (P := PixelIndex.wf) (fun _ => PixelIndex.wf_clear)
      (fun _ c hp => PixelIndex.wf_toggleCell hp c) hwf,
    heffect.preserves (P := PixelIndex.Inv) (fun _ => PixelIndex.Inv.clear) (fun _ c hp => hp.toggleCell c) hinv⟩

theorem IndexConsistent.of_index_eq {s t : State} (hs : IndexConsistent s) (h : t.index = s.index) :
    IndexConsistent t := by
  unfold IndexConsistent
  rwa [h]

theorem request_keeps_indexConsistent {keys : BitVec 16} {rnd : Byte} {s t : State}
    (h : s.request keys rnd = .next t) (hs : IndexConsistent s) : IndexConsistent t := by
  rcases State.request_index h with hindex | ⟨-, op, i, u, -, -, hexec, hindex⟩
  · exact hs.of_index_eq hindex
  · have hready : IndexConsistent (s.ready keys rnd) := hs.of_index_eq rfl
    exact (exec_keeps_indexConsistent hexec hready).of_index_eq hindex

theorem fetchable_of_fetch_ok {s : State} {op : Word} (h : s.fetch = .ok op) : Fetchable s ∧ op = opcodeAt s := by
  obtain ⟨⟨hlow, hhigh⟩, heven, hop⟩ := State.fetch_ok_inv h
  rw [BitVec.getElem_eq_testBit_toNat] at heven
  refine ⟨⟨hlow, hhigh, ?_⟩, hop⟩
  simpa using heven

/-- Settles O55: the host's turn leaves the index, and its request keeps it consistent. -/
theorem stepKeepsTheIndexConsistent : Obligations.StepKeepsTheIndexConsistent := by
  unfold Obligations.StepKeepsTheIndexConsistent
  intro s t hs h
  have hturn : IndexConsistent s.afterTurn := hs.of_index_eq rfl
  exact request_keeps_indexConsistent h hturn

/-- Settles O41: of the effects of an execute phase only those of `00E0` and `DXYN` change the index, and a request
changes it as its execute phase does. -/
theorem onlyDrawAndClsMutateTheIndex : Obligations.OnlyDrawAndClsMutateTheIndex := by
  unfold Obligations.OnlyDrawAndClsMutateTheIndex
  refine ⟨fun i s t h hne => exec_index_ne h hne, fun keys rnd s t h hne => ?_, fun s => rfl⟩
  rcases State.request_index h with hindex | ⟨hrunning, op, i, u, hfetch, hdecode, hexec, hindex⟩
  · exact absurd hindex hne
  · obtain ⟨hfetchable, rfl⟩ := fetchable_of_fetch_ok hfetch
    refine ⟨hrunning, hfetchable, ?_⟩
    rcases exec_index_ne hexec (hindex ▸ hne) with ⟨ign, rfl⟩ | ⟨x, y, n, rfl⟩
    · exact .inl ⟨ign, hdecode⟩
    · exact .inr ⟨x, y, n, hdecode⟩

/-- Settles O44: an execute phase keeps `STATUS` or raises another fault; a draw checks the grid before it calls the
index (`drawCells_of_onGrid`). -/
theorem indexBoundsIsUnreachable : Obligations.IndexBoundsIsUnreachable := by
  unfold Obligations.IndexBoundsIsUnreachable
  intro i s t hs h
  cases indexEffect_of_exec h with
  | kept _ hstatus => rwa [hstatus]
  | raised op info hc => exact Cause.code_ne_nine hc
  | cleared _ hstatus => rwa [hstatus]
  | drawn _ _ hstatus => rwa [hstatus]

end Sys2Proof.Safety
end

section
/-! What an unknown opcode, the timer step and a host's turn do (30_encoding.md R116; 41_cycle.md R173, R180, R181). -/

namespace Sys2Proof

/-! ### A decoded word is in the opcode map -/

theorem Instr.row_mem_opcodeMap (i : Instr) : i.row ∈ opcodeMap := by
  cases i <;> simp [Instr.row, opcodeMap]

/-- One line for each constructor, in the table's order (30_encoding.md R115). -/
theorem Instr.row_takes_encode : ∀ i : Instr, i.row.takes (encode i) = true
  | .cls ign => Laws.TableRow.cls ign
  | .ret ign => Laws.TableRow.ret ign
  | .jp nnn => Laws.TableRow.jp nnn
  | .call nnn => Laws.TableRow.call nnn
  | .seByte x nn => Laws.TableRow.seByte x nn
  | .sneByte x nn => Laws.TableRow.sneByte x nn
  | .seReg x y ign => Laws.TableRow.seReg x y ign
  | .ldByte x nn => Laws.TableRow.ldByte x nn
  | .addByte x nn => Laws.TableRow.addByte x nn
  | .ldReg x y => Laws.TableRow.ldReg x y
  | .orReg x y => Laws.TableRow.orReg x y
  | .andReg x y => Laws.TableRow.andReg x y
  | .xorReg x y => Laws.TableRow.xorReg x y
  | .addReg x y => Laws.TableRow.addReg x y
  | .subReg x y => Laws.TableRow.subReg x y
  | .shr x ign => Laws.TableRow.shr x ign
  | .subnReg x y => Laws.TableRow.subnReg x y
  | .shl x ign => Laws.TableRow.shl x ign
  | .sneReg x y ign => Laws.TableRow.sneReg x y ign
  | .ldI nnn => Laws.TableRow.ldI nnn
  | .jpV0 nnn => Laws.TableRow.jpV0 nnn
  | .rnd x nn => Laws.TableRow.rnd x nn
  | .drw x y n => Laws.TableRow.drw x y n
  | .skp x => Laws.TableRow.skp x
  | .sknp x => Laws.TableRow.sknp x
  | .ldVxDt x => Laws.TableRow.ldVxDt x
  | .ldVxK x => Laws.TableRow.ldVxK x
  | .ldDtVx x => Laws.TableRow.ldDtVx x
  | .ldStVx x => Laws.TableRow.ldStVx x
  | .addI x => Laws.TableRow.addI x
  | .ldF x => Laws.TableRow.ldF x
  | .ldB x => Laws.TableRow.ldB x
  | .stRegs x => Laws.TableRow.stRegs x
  | .ldRegs x => Laws.TableRow.ldRegs x

theorem wellFormedWord_of_decodeWord {op : Word} {i : Instr} (h : decodeWord op = .ok i) :
    wellFormedWord op = true := by
  rw [← encode_of_decodeWord h]
  exact List.any_eq_true.2 ⟨i.row, i.row_mem_opcodeMap, i.row_takes_encode⟩

/-- The decoder reports a word that no row takes as the unknown opcode it is (30_encoding.md R116). -/
theorem decodeWord_of_not_wellFormed {op : Word} (h : wellFormedWord op = false) :
    decodeWord op = .error (.unknownOpcode op) := by
  rcases faithful_decodeWord op with herror | ⟨i, hok, -⟩
  · exact herror
  · simp [wellFormedWord_of_decodeWord hok] at h

end Sys2Proof

namespace Sys2Proof.Machine

/-! ### The timer step -/

theorem State.timerStep_tone_iff (u : State) : u.timerStep.out.tone = true ↔ u.st.toNat = 1 :=
  beq_iff_eq.trans (BitVec.toNat_inj (x := u.st) (y := 1)).symm

/-- A step that ends in a block still running is the timer step of what its execute phase left. -/
theorem timerStep_of_finishStep {s t : State} {o : Host.Outcome State Fault Refusal} (h : finishStep s o = .next t)
    (ht : t.status.halted = false) : ∃ u, o = .next u ∧ t = u.timerStep := by
  cases o with
  | next u =>
    cases hu : u.status.halted with
    | true =>
      rw [finishStep_halted s hu] at h
      cases h
      simp [hu] at ht
    | false =>
      rw [finishStep_running s hu] at h
      exact ⟨u, rfl, (Host.Outcome.next.inj h).symm⟩
  | fault r => cases h
  | refused r => cases h

/-! ### The host's turn -/

/-- The end of a step reads only the latches of the state before it, which the host's turn leaves. -/
theorem finishStep_afterTurn (s : State) (o : Host.Outcome State Fault Refusal) :
    finishStep s.afterTurn o = finishStep s o := rfl

theorem step_of_halted {s : State} (h : s.status.halted = true) : step s = .next s.afterTurn.quiet := by
  have hturn : s.afterTurn.status.halted = true := h
  rw [step_eq, State.request_halted hturn]

theorem run_succ_of_step {s t : State} (h : step s = .next t) (k : Nat) :
    Sys2Proof.core.run (k + 1) s = Sys2Proof.core.run k t := by
  have hcore : Sys2Proof.core.step s = .next t := h
  simp only [Host.Core.run, hcore]

/-- From `s` to `t` nothing has changed but `clear_requested`, the outputs and the host's turns. -/
def HostDriven (s t : State) : Prop :=
  t = { s with clearRequested := t.clearRequested, out := t.out, schedule := t.schedule, turn := t.turn }

theorem HostDriven.status {s t : State} (h : HostDriven s t) : t.status = s.status := by
  unfold HostDriven at h
  rw [h]

theorem HostDriven.trans {s t u : State} (hst : HostDriven s t) (htu : HostDriven t u) : HostDriven s u := by
  unfold HostDriven at hst htu ⊢
  rw [hst] at htu
  exact htu

/-- However many turns the host takes, a halted block stays: each turn leaves it halted. -/
theorem run_of_halted (k : Nat) {s : State} (h : s.status.halted = true) :
    ∃ t, Sys2Proof.core.run k s = .next t ∧ HostDriven s t := by
  induction k generalizing s with
  | zero => exact ⟨s, rfl, rfl⟩
  | succ k ih =>
    have hturn : HostDriven s s.afterTurn.quiet := rfl
    obtain ⟨t, hrun, ht⟩ := ih (s := s.afterTurn.quiet) h
    exact ⟨t, (run_succ_of_step (step_of_halted h) k).trans hrun, hturn.trans ht⟩

end Sys2Proof.Machine
end

section
/-! The step (41_cycle.md). -/

namespace Sys2Proof.Safety
open Sys2Proof.Machine

theorem faulted_raise (c : Cause) (op info : Word) (s : State) : Faulted c.code op info s (s.raise c op info) := rfl

/-- Settles O8: the fetch gives its fault, which the request raises on the state of before it. -/
theorem fetchFaultsOutsideTheProgramAndAtOddAddresses : Obligations.FetchFaultsOutsideTheProgramAndAtOddAddresses := by
  unfold Obligations.FetchFaultsOutsideTheProgramAndAtOddAddresses
  refine ⟨fun keys rnd s hrunning hpc => ?range, fun keys rnd s hrunning hlow hhigh hodd => ?misaligned⟩
  case range =>
    exact ⟨_, State.request_fetchError hrunning (State.fetch_range hpc), faulted_raise .fetchRange 0 s.pc s⟩
  case misaligned =>
    have hin : ¬(s.pc.toNat < Config.progBase ∨ Config.lastFetch < s.pc.toNat) := by
      simp only [Config.progBase, Config.lastFetch]
      omega
    have hbit : s.pc[0] = true := by simp [BitVec.getElem_eq_testBit_toNat, hodd]
    exact ⟨_, State.request_fetchError hrunning (State.fetch_misaligned hin hbit),
      faulted_raise .fetchMisaligned 0 s.pc s⟩

theorem request_unknownOpcode {keys : BitVec 16} {rnd : Byte} {s : State} (hrunning : s.status.halted = false)
    (hs : Fetchable s) (hword : wellFormedWord (opcodeAt s) = false) :
    s.request keys rnd = .next ((latched keys rnd s).unknownOpcode (opcodeAt s)).timerStep := by
  rw [State.request_fetched hrunning (fetch_of_fetchable hs),
    State.execWord_error (decodeWord_of_not_wellFormed hword)]
  exact finishStep_running s hrunning

/-- Settles O9: the state after the step is the timer step of `State.unknownOpcode` (`request_unknownOpcode`), and
`PC + 2` does not wrap at a fetchable `PC`. -/
theorem unknownOpcodeReportsAndAdvances : Obligations.UnknownOpcodeReportsAndAdvances := by
  unfold Obligations.UnknownOpcodeReportsAndAdvances
  intro keys rnd s hrunning hs hword
  refine ⟨_, request_unknownOpcode hrunning hs hword, rfl, rfl, rfl, ?pc, toNat_countDown s.dt, toNat_countDown s.st,
    State.timerStep_tone_iff _, rfl, fun _ => rfl⟩
  obtain ⟨-, hhigh, -⟩ := hs
  have hnowrap : s.pc.toNat + (2 : Word).toNat < 2 ^ 16 := by
    change s.pc.toNat + 2 < 65536
    omega
  exact BitVec.toNat_add_of_lt hnowrap

/-- Settles O10: a request makes the outputs quiet, the turns are `run_of_halted`, and a reset that fits writes the
`STATUS` of `State.reset`. -/
theorem haltedBlockStaysHalted : Obligations.HaltedBlockStaysHalted := by
  unfold Obligations.HaltedBlockStaysHalted
  refine ⟨fun keys rnd s h => State.request_halted h keys rnd, fun k s h => ?turns, fun s => rfl,
    fun s other memInit prog hfits => ?reset⟩
  case turns =>
    obtain ⟨t, hrun, ht⟩ := run_of_halted k h
    exact ⟨t, hrun, ht.status, ht⟩
  case reset =>
    rw [State.hostReset_of_fits s other memInit hfits]
    rfl

/-- A request that leaves the block running has fetched a word, and ends with the timer step. -/
theorem request_completes {keys : BitVec 16} {rnd : Byte} {s t : State} (hs : s.status.halted = false)
    (h : s.request keys rnd = .next t) (ht : t.status.halted = false) :
    ∃ u, (latched keys rnd s).execWord (opcodeAt s) = .next u ∧ t = u.timerStep := by
  cases hfetch : s.fetch with
  | error c =>
    rw [State.request_fetchError hs hfetch] at h
    cases h
    simp at ht
  | ok op =>
    obtain ⟨-, rfl⟩ := fetchable_of_fetch_ok hfetch
    rw [State.request_fetched hs hfetch] at h
    exact timerStep_of_finishStep h ht

/-- Settles O12: what the execute phase left is followed by the timer step and nothing else (`request_completes`). -/
theorem completedStepCountsTheTimers : Obligations.CompletedStepCountsTheTimers := by
  unfold Obligations.CompletedStepCountsTheTimers
  intro keys rnd s t hs h ht
  obtain ⟨u, hexec, rfl⟩ := request_completes hs h ht
  exact ⟨u, hexec, toNat_countDown u.dt, toNat_countDown u.st, u.timerStep_tone_iff, rfl⟩

/-- Settles O7: the request of the host's turn, made on `State.afterTurn`, fetches the word and executes `i`. -/
theorem stepRunsTheDecodedInstruction : Obligations.StepRunsTheDecodedInstruction := by
  unfold Obligations.StepRunsTheDecodedInstruction
  intro s i hrunning hs hdecode
  have hturn : s.afterTurn.status.halted = false := hrunning
  have hfetch : s.afterTurn.fetch = .ok (opcodeAt s) := fetch_of_fetchable (s := s.afterTurn) hs
  rw [step_eq, State.request_fetched hturn hfetch, State.execWord_ok hdecode, finishStep_afterTurn]
  rfl

end Sys2Proof.Safety
end

section
/-! The rows of the opcode map for display clear, jumps, calls and skips (30_encoding.md R114, R115). -/

namespace Sys2Proof.Safety

/-! ### The words of a row, by the fields it fixes -/

theorem encoded_of_family {f : Nibble} {i : Word → Instr} (h : ∀ op, family op = f → decodeWord op = .ok (i op)) :
    Encoded 0xF000 (wordXNN f 0 0) i :=
  fun op hop => h op (family_of_mask hop)

theorem encoded_of_family_fieldNN {f : Nibble} {nn : Byte} {i : Word → Instr}
    (h : ∀ op, family op = f → fieldNN op = nn → decodeWord op = .ok (i op)) :
    Encoded 0xF0FF (wordXNN f 0 nn) i := fun op hop =>
  have ⟨hfamily, hlow⟩ := family_fieldNN_of_mask hop
  h op hfamily hlow

/-- A word of a row is the word of the instruction that the row decodes it to: what a fault of it records in `FOP`. -/
theorem Encoded.encode_eq {mask value op : Word} {i : Word → Instr} (h : Encoded mask value i)
    (hop : op &&& mask = value) : encode (i op) = op :=
  encode_of_decodeWord (h op hop)

/-! ### The rows -/

theorem encoded_cls : Encoded 0xF0FF 0x00E0 (fun op => .cls (fieldX op)) :=
  encoded_of_family_fieldNN (f := 0x0) (nn := 0xE0) fun _ hf hnn => by simp [decodeWord, decodeFamily0, hf, hnn]

theorem encoded_ret : Encoded 0xF0FF 0x00EE (fun op => .ret (fieldX op)) :=
  encoded_of_family_fieldNN (f := 0x0) (nn := 0xEE) fun _ hf hnn => by simp [decodeWord, decodeFamily0, hf, hnn]

theorem encoded_jp : Encoded 0xF000 0x1000 (fun op => .jp (fieldNNN op)) :=
  encoded_of_family (f := 0x1) fun _ hf => by simp [decodeWord, hf]

theorem encoded_call : Encoded 0xF000 0x2000 (fun op => .call (fieldNNN op)) :=
  encoded_of_family (f := 0x2) fun _ hf => by simp [decodeWord, hf]

theorem encoded_seByte : Encoded 0xF000 0x3000 (fun op => .seByte (fieldX op) (fieldNN op)) :=
  encoded_of_family (f := 0x3) fun _ hf => by simp [decodeWord, hf]

theorem encoded_sneByte : Encoded 0xF000 0x4000 (fun op => .sneByte (fieldX op) (fieldNN op)) :=
  encoded_of_family (f := 0x4) fun _ hf => by simp [decodeWord, hf]

theorem encoded_seReg : Encoded 0xF000 0x5000 (fun op => .seReg (fieldX op) (fieldY op) (fieldN op)) :=
  encoded_of_family (f := 0x5) fun _ hf => by simp [decodeWord, hf]

theorem encoded_sneReg : Encoded 0xF000 0x9000 (fun op => .sneReg (fieldX op) (fieldY op) (fieldN op)) :=
  encoded_of_family (f := 0x9) fun _ hf => by simp [decodeWord, hf]

theorem encoded_jpV0 : Encoded 0xF000 0xB000 (fun op => .jpV0 (fieldNNN op)) :=
  encoded_of_family (f := 0xB) fun _ hf => by simp [decodeWord, hf]

end Sys2Proof.Safety
end

section
/-! Control transfer, skips and display clear (42_control.md). -/

namespace Sys2Proof.Machine

/-! ### Return and call, where the stack allows them and where it does not (R201, R203) -/

theorem exec_ret_of_pos {s : State} (h : 0 < s.sp.val) (ign : Nibble) :
    exec (.ret ign) s =
      .next (State.setPc { s with sp := ⟨s.sp.val - 1, by omega⟩ } (s.stack[s.sp.val - 1]'(by omega) + 2)) := by
  simp only [exec, execRet, State.pop_of_pos h]

theorem exec_ret_of_empty {s : State} (h : s.sp.val = 0) (ign : Nibble) :
    exec (.ret ign) s = .next (s.raise .stackUnderflow (encode (.ret ign)) 0) := by
  simp only [exec, execRet, State.pop_eq_none_iff.2 h]

theorem exec_call_of_lt {s : State} (h : s.sp.val < 16) (nnn : Addr) :
    exec (.call nnn) s =
      .next (State.setPc { s with stack := s.stack.set s.sp.val s.pc h, sp := ⟨s.sp.val + 1, by omega⟩ }
        (nnn.setWidth 16)) := by
  simp only [exec, execCall, State.push_of_lt h]

theorem exec_call_of_full {s : State} (h : s.sp.val = 16) (nnn : Addr) :
    exec (.call nnn) s = .next (s.raise .stackOverflow (encode (.call nnn)) (nnn.setWidth 16)) := by
  simp only [exec, execCall, State.push_eq_none_iff.2 h]

/-! ### Targets and conditions -/

theorem toNat_jumpTarget (nnn : Addr) : (nnn.setWidth 16 : Word).toNat = nnn.toNat :=
  BitVec.toNat_setWidth_of_le (by decide)

/-- The sum of `BNNN` is at most 0xFFF + 0xFF, so it is exact (R208). -/
theorem toNat_jumpTarget_add (nnn : Addr) (b : Byte) :
    (nnn.setWidth 16 + b.setWidth 16 : Word).toNat = nnn.toNat + b.toNat := by
  have hb : (b.setWidth 16 : Word).toNat = b.toNat := BitVec.toNat_setWidth_of_le (by decide)
  rw [BitVec.toNat_add_of_lt, toNat_jumpTarget, hb]
  rw [toNat_jumpTarget, hb]
  omega

theorem State.skipIf_pc_of_iff {s : State} {c : Bool} {p : Prop} [Decidable p] (h : c = true ↔ p) :
    (s.skipIf c).pc = if p then s.pc + 4 else s.pc + 2 :=
  if_congr h rfl rfl

theorem beq_iff_toNat_eq {a b : Byte} : (a == b) = true ↔ a.toNat = b.toNat :=
  beq_iff_eq.trans BitVec.toNat_inj.symm

theorem bne_iff_toNat_ne {a b : Byte} : (a != b) = true ↔ a.toNat ≠ b.toNat :=
  bne_iff_ne.trans BitVec.toNat_inj.symm.not

end Sys2Proof.Machine

namespace Sys2Proof.Safety
open Sys2Proof.Machine

theorem onlyRegs_setPc (s : State) (w : Word) : OnlyRegs [] s (s.setPc w) :=
  ⟨rfl, fun _ _ => rfl, fun _ => rfl⟩

theorem onlyRegs_skipIf (s : State) (c : Bool) : OnlyRegs [] s (s.skipIf c) :=
  onlyRegs_setPc s _

/-- Settles O14: the effect is `PixelIndex.clear`, which leaves no active cell of a consistent index
(`PixelIndex.Inv.cellAt_clear`). -/
theorem clsEmptiesTheDisplay : Obligations.ClsEmptiesTheDisplay := by
  unfold Obligations.ClsEmptiesTheDisplay
  refine ⟨encoded_cls, fun ign s => ⟨_, rfl, rfl, s.index.list_clear, fun hinv d => ?inactive, rfl, fun _ _ => rfl,
    fun _ => rfl⟩⟩
  case inactive => exact PixelIndex.active_eq_false_iff.2 (hinv.cellAt_clear d)

/-- Settles O15: `exec_ret_of_pos` and `exec_ret_of_empty`; `FOP` is the word itself, since the decoder drops no bit of
it (`Encoded.encode_eq`). -/
theorem retPopsOrFaults : Obligations.RetPopsOrFaults := by
  unfold Obligations.RetPopsOrFaults
  refine ⟨encoded_ret, fun ign s h => ?pops, fun op s hop h => ?faults⟩
  case pops => exact ⟨_, exec_ret_of_pos h ign, rfl, rfl, rfl, fun _ _ => rfl, fun _ => rfl⟩
  case faults =>
    have hexec := exec_ret_of_empty h (fieldX op)
    rw [encoded_ret.encode_eq hop] at hexec
    exact ⟨_, hexec, faulted_raise .stackUnderflow op 0 s⟩

/-- Settles O16: both set `PC` alone (`onlyRegs_setPc`), and neither target wraps (`toNat_jumpTarget_add`). -/
theorem jumpsSetThePc : Obligations.JumpsSetThePc := by
  unfold Obligations.JumpsSetThePc
  exact ⟨encoded_jp, encoded_jpV0, fun nnn s => ⟨_, rfl, toNat_jumpTarget nnn, onlyRegs_setPc s _⟩,
    fun nnn s => ⟨_, rfl, toNat_jumpTarget_add nnn (s.getV 0), onlyRegs_setPc s _⟩⟩

/-- Settles O17: `exec_call_of_lt` and `exec_call_of_full`, with `FOP` as for a return. -/
theorem callPushesOrFaults : Obligations.CallPushesOrFaults := by
  unfold Obligations.CallPushesOrFaults
  refine ⟨encoded_call, fun nnn s h => ?pushes, fun op s hop h => ?faults⟩
  case pushes =>
    refine ⟨_, exec_call_of_lt h nnn, rfl, toNat_jumpTarget nnn, fun k hk => ?slots, rfl, fun _ _ => rfl, fun _ => rfl⟩
    case slots => simp [Vector.getElem_set, eq_comm]
  case faults =>
    have hexec := exec_call_of_full h (fieldNNN op)
    rw [encoded_call.encode_eq hop] at hexec
    exact ⟨_, hexec, faulted_raise .stackOverflow op _ s⟩

/-- Settles O18: the slot that the return pops is the one the call pushed its own `PC` to. -/
theorem returnResumesAfterTheCall : Obligations.ReturnResumesAfterTheCall := by
  unfold Obligations.ReturnResumesAfterTheCall
  intro nnn ign s h
  refine ⟨_, exec_call_of_lt h nnn, fun u hstack hsp => ?_⟩
  have hdepth : u.sp.val = s.sp.val + 1 := congrArg Fin.val hsp
  refine ⟨_, exec_ret_of_pos (by omega) ign, ?pc, ?sp⟩
  case pc => simp [hstack, hdepth]
  case sp => exact Fin.ext (by simp [hdepth])

/-- Settles O19: both are `State.skipIf`, on `V[X]` and `NN`. -/
theorem skipOnConstant : Obligations.SkipOnConstant := by
  unfold Obligations.SkipOnConstant
  exact ⟨encoded_seByte, encoded_sneByte,
    fun x nn s => ⟨_, rfl, State.skipIf_pc_of_iff beq_iff_toNat_eq, onlyRegs_skipIf s _⟩,
    fun x nn s => ⟨_, rfl, State.skipIf_pc_of_iff bne_iff_toNat_ne, onlyRegs_skipIf s _⟩⟩

/-- Settles O20: both are `State.skipIf`, on `V[X]` and `V[Y]`. -/
theorem skipOnRegister : Obligations.SkipOnRegister := by
  unfold Obligations.SkipOnRegister
  exact ⟨encoded_seReg, encoded_sneReg,
    fun x y ign s => ⟨_, rfl, State.skipIf_pc_of_iff beq_iff_toNat_eq, onlyRegs_skipIf s _⟩,
    fun x y ign s => ⟨_, rfl, State.skipIf_pc_of_iff bne_iff_toNat_ne, onlyRegs_skipIf s _⟩⟩

end Sys2Proof.Safety
end

section
/-! The rows of the opcode map for registers and arithmetic (30_encoding.md R114, R115). -/

namespace Sys2Proof.Safety

/-! ### The words of a row of family 8, by its low nibble -/

theorem decodeWord_of_family8 {op : Word} (hf : family op = 0x8) : decodeWord op = decodeFamily8 op := by
  simp [decodeWord, hf]

theorem encoded_of_family8_fieldN {n : Nibble} {i : Word → Instr}
    (h : ∀ op, fieldN op = n → decodeFamily8 op = .ok (i op)) :
    Encoded 0xF00F (wordXYN 0x8 0 0 n) i := fun op hop =>
  have ⟨hfamily, hlow⟩ := family_fieldN_of_mask hop
  (decodeWord_of_family8 hfamily).trans (h op hlow)

/-! ### The rows -/

theorem encoded_ldByte : Encoded 0xF000 0x6000 (fun op => .ldByte (fieldX op) (fieldNN op)) :=
  encoded_of_family (f := 0x6) fun _ hf => by simp [decodeWord, hf]

theorem encoded_addByte : Encoded 0xF000 0x7000 (fun op => .addByte (fieldX op) (fieldNN op)) :=
  encoded_of_family (f := 0x7) fun _ hf => by simp [decodeWord, hf]

theorem encoded_rnd : Encoded 0xF000 0xC000 (fun op => .rnd (fieldX op) (fieldNN op)) :=
  encoded_of_family (f := 0xC) fun _ hf => by simp [decodeWord, hf]

theorem encoded_ldReg : Encoded 0xF00F 0x8000 (fun op => .ldReg (fieldX op) (fieldY op)) :=
  encoded_of_family8_fieldN (n := 0x0) fun _ hn => by simp [decodeFamily8, hn]

theorem encoded_orReg : Encoded 0xF00F 0x8001 (fun op => .orReg (fieldX op) (fieldY op)) :=
  encoded_of_family8_fieldN (n := 0x1) fun _ hn => by simp [decodeFamily8, hn]

theorem encoded_andReg : Encoded 0xF00F 0x8002 (fun op => .andReg (fieldX op) (fieldY op)) :=
  encoded_of_family8_fieldN (n := 0x2) fun _ hn => by simp [decodeFamily8, hn]

theorem encoded_xorReg : Encoded 0xF00F 0x8003 (fun op => .xorReg (fieldX op) (fieldY op)) :=
  encoded_of_family8_fieldN (n := 0x3) fun _ hn => by simp [decodeFamily8, hn]

theorem encoded_addReg : Encoded 0xF00F 0x8004 (fun op => .addReg (fieldX op) (fieldY op)) :=
  encoded_of_family8_fieldN (n := 0x4) fun _ hn => by simp [decodeFamily8, hn]

theorem encoded_subReg : Encoded 0xF00F 0x8005 (fun op => .subReg (fieldX op) (fieldY op)) :=
  encoded_of_family8_fieldN (n := 0x5) fun _ hn => by simp [decodeFamily8, hn]

theorem encoded_shr : Encoded 0xF00F 0x8006 (fun op => .shr (fieldX op) (fieldY op)) :=
  encoded_of_family8_fieldN (n := 0x6) fun _ hn => by simp [decodeFamily8, hn]

theorem encoded_subnReg : Encoded 0xF00F 0x8007 (fun op => .subnReg (fieldX op) (fieldY op)) :=
  encoded_of_family8_fieldN (n := 0x7) fun _ hn => by simp [decodeFamily8, hn]

theorem encoded_shl : Encoded 0xF00F 0x800E (fun op => .shl (fieldX op) (fieldY op)) :=
  encoded_of_family8_fieldN (n := 0xE) fun _ hn => by simp [decodeFamily8, hn]

end Sys2Proof.Safety
end

section
/-! Registers and arithmetic (43_alu.md). -/

namespace Sys2Proof.Machine

/-! ### Byte arithmetic (R230) -/

theorem toNat_byte_sub (a b : Byte) : (a - b).toNat = (256 + a.toNat - b.toNat) % 256 := by
  have hb := b.isLt
  rw [BitVec.toNat_sub]
  congr 1
  omega

theorem toNat_byte_shiftRight_one (a : Byte) : (a >>> 1).toNat = a.toNat / 2 := by
  rw [BitVec.toNat_ushiftRight, Nat.shiftRight_eq_div_pow, Nat.pow_one]

theorem toNat_byte_shiftLeft_one (a : Byte) : (a <<< 1).toNat = a.toNat * 2 % 256 := by
  rw [BitVec.toNat_shiftLeft, Nat.shiftLeft_eq, Nat.pow_one]

/-! ### Flags -/

theorem toNat_flagByte (b : Bool) : (flagByte b).toNat = b.toNat := by
  cases b <;> rfl

theorem toNat_flagByte_decide (p : Prop) [Decidable p] : (flagByte (decide p)).toNat = if p then 1 else 0 := by
  by_cases h : p <;> simp [flagByte, h]

theorem toNat_flagByte_carry (a b : Byte) :
    (flagByte (carry a b)).toNat = if 255 < a.toNat + b.toNat then 1 else 0 :=
  toNat_flagByte_decide _

theorem toNat_flagByte_notBorrow (a b : Byte) :
    (flagByte (notBorrow a b)).toNat = if b.toNat ≤ a.toNat then 1 else 0 :=
  toNat_flagByte_decide _

theorem toNat_flagByte_shiftedOutRight (a : Byte) : (flagByte (shiftedOutRight a)).toNat = a.toNat % 2 := by
  rw [toNat_flagByte, shiftedOutRight, BitVec.getElem_eq_testBit_toNat, Nat.toNat_testBit, Nat.pow_zero, Nat.div_one]

/-- Bit 7 is the top bit of a byte, so what is left above it needs no reduction. -/
theorem toNat_flagByte_shiftedOutLeft (a : Byte) : (flagByte (shiftedOutLeft a)).toNat = a.toNat / 128 := by
  have ha := a.isLt
  rw [toNat_flagByte, shiftedOutLeft, BitVec.getElem_eq_testBit_toNat, Nat.toNat_testBit]
  omega

end Sys2Proof.Machine

namespace Sys2Proof.Safety
open Sys2Proof.Machine

/-! ### One register, and a result with its flag -/

theorem onlyRegs_setV_advance (s : State) (x : Nibble) (b : Byte) : OnlyRegs [x] s (s.setV x b).advance :=
  ⟨rfl, fun _ hz => s.getV_setV_ne b (List.ne_of_not_mem_cons hz), fun _ => rfl⟩

theorem onlyRegs_setResultFlag_advance (s : State) (x : Nibble) (r : Byte) (flag : Bool) :
    OnlyRegs [x, 0xF] s (s.setResultFlag x r flag).advance := by
  refine ⟨rfl, fun z hz => ?_, fun _ => rfl⟩
  obtain ⟨hx, hF⟩ : z ≠ x ∧ z ≠ 0xF := by simpa using hz
  rw [State.getV_advance, State.getV_setResultFlag, if_neg hF, if_neg hx]

/-- An instruction that writes a result and then, last, a flag: the result is lost where `x = F` (R230). -/
theorem setsResultAndFlag {i : Instr} {s : State} {x : Nibble} {r : Byte} {flag : Bool} {m n : Nat}
    (hexec : exec i s = .next (s.setResultFlag x r flag).advance) (hr : r.toNat = m)
    (hflag : (flagByte flag).toNat = n) :
    ∃ t, exec i s = .next t ∧ (x ≠ 0xF → (t.getV x).toNat = m) ∧ (t.getV 0xF).toNat = n ∧ t.pc = s.pc + 2 ∧
      OnlyRegs [x, 0xF] s t := by
  refine ⟨_, hexec, fun hx => ?result, ?flag, rfl, onlyRegs_setResultFlag_advance s x r flag⟩
  case result => rw [State.getV_advance, State.getV_setResultFlag, if_neg hx, if_pos rfl, hr]
  case flag => rw [State.getV_advance, State.getV_setResultFlag, if_pos rfl, hflag]

/-- Settles O21: the effect of both is one `State.setV`. -/
theorem loadsSetOneRegister : Obligations.LoadsSetOneRegister := by
  unfold Obligations.LoadsSetOneRegister
  exact ⟨encoded_ldByte, encoded_ldReg,
    fun x nn s => ⟨_, rfl, s.getV_setV_same x nn, rfl, onlyRegs_setV_advance s x nn⟩,
    fun x y s => ⟨_, rfl, s.getV_setV_same x (s.getV y), rfl, onlyRegs_setV_advance s x _⟩⟩

/-- Settles O22: the sum of two bytes is taken modulo 256, and one `State.setV` writes it. -/
theorem addConstantWraps : Obligations.AddConstantWraps := by
  unfold Obligations.AddConstantWraps
  refine ⟨encoded_addByte, fun x nn s => ⟨_, rfl, ?sum, rfl, onlyRegs_setV_advance s x _⟩⟩
  case sum => rw [State.getV_advance, State.getV_setV_same, BitVec.toNat_add]

/-- Settles O23: the byte that `State.setV` writes is the OR, AND or XOR, whose bits are those of the operands. -/
theorem logicIsBitwise : Obligations.LogicIsBitwise := by
  unfold Obligations.LogicIsBitwise
  refine ⟨encoded_orReg, encoded_andReg, encoded_xorReg,
    fun x y s => ⟨_, rfl, fun k => ?or, rfl, onlyRegs_setV_advance s x _⟩,
    fun x y s => ⟨_, rfl, fun k => ?and, rfl, onlyRegs_setV_advance s x _⟩,
    fun x y s => ⟨_, rfl, fun k => ?xor, rfl, onlyRegs_setV_advance s x _⟩⟩
  case or => rw [State.getV_advance, State.getV_setV_same, BitVec.getLsbD_or]
  case and => rw [State.getV_advance, State.getV_setV_same, BitVec.getLsbD_and]
  case xor => rw [State.getV_advance, State.getV_setV_same, BitVec.getLsbD_xor]

/-- Settles O24: the sum, and the carry of the same operands as the flag. -/
theorem addSetsCarry : Obligations.AddSetsCarry := by
  unfold Obligations.AddSetsCarry
  exact ⟨encoded_addReg, fun x y s =>
    setsResultAndFlag rfl (BitVec.toNat_add (s.getV x) (s.getV y)) (toNat_flagByte_carry (s.getV x) (s.getV y))⟩

/-- Settles O25: the difference, and NOT borrow of the same operands as the flag; `8XY7` has them the other way round. -/
theorem subtractsSetNotBorrow : Obligations.SubtractsSetNotBorrow := by
  unfold Obligations.SubtractsSetNotBorrow
  exact ⟨encoded_subReg, encoded_subnReg,
    fun x y s => setsResultAndFlag rfl (toNat_byte_sub (s.getV x) (s.getV y)) (toNat_flagByte_notBorrow _ _),
    fun x y s => setsResultAndFlag rfl (toNat_byte_sub (s.getV y) (s.getV x)) (toNat_flagByte_notBorrow _ _)⟩

/-- Settles O26: `V[X]` shifted by one, and its lowest or highest bit as the flag. -/
theorem shiftsSetTheBitShiftedOut : Obligations.ShiftsSetTheBitShiftedOut := by
  unfold Obligations.ShiftsSetTheBitShiftedOut
  exact ⟨encoded_shr, encoded_shl,
    fun x _ s => setsResultAndFlag rfl (toNat_byte_shiftRight_one (s.getV x)) (toNat_flagByte_shiftedOutRight _),
    fun x _ s => setsResultAndFlag rfl (toNat_byte_shiftLeft_one (s.getV x)) (toNat_flagByte_shiftedOutLeft _)⟩

/-! ### A whole request -/

/-- A request that fetches an instruction whose execute phase raises no fault ends with the timer step. -/
theorem request_of_exec {keys : BitVec 16} {rnd : Byte} {s u : State} {i : Instr} (hrunning : s.status.halted = false)
    (hs : Fetchable s) (hdecode : decodeWord (opcodeAt s) = .ok i) (hexec : exec i (latched keys rnd s) = .next u)
    (hu : u.status.halted = false) : s.request keys rnd = .next u.timerStep := by
  have hready : exec i (s.ready keys rnd) = .next u := hexec
  rw [State.request_fetched hrunning (fetch_of_fetchable hs), State.execWord_ok hdecode, hready,
    finishStep_running s hu]

/-- Settles O27: the byte that `State.setV` writes is `RNDIN` under the mask; a request latches `rnd` in `RNDIN` before
the execute phase, and its timer step leaves the registers. -/
theorem randomIsTheInputMasked : Obligations.RandomIsTheInputMasked := by
  unfold Obligations.RandomIsTheInputMasked
  refine ⟨encoded_rnd, fun x nn s => ⟨_, rfl, fun k => ?bits, rfl, onlyRegs_setV_advance s x _⟩,
    fun keys rnd s hrunning hs hop => ⟨_, request_of_exec hrunning hs (encoded_rnd _ hop) rfl hrunning, ?request⟩⟩
  case bits => rw [State.getV_advance, State.getV_setV_same, BitVec.getLsbD_and]
  case request => exact (latched keys rnd s).getV_setV_same _ _

end Sys2Proof.Safety
end

section
/-! The rows of the opcode map for the index register and memory (30_encoding.md R114, R115). -/

namespace Sys2Proof.Safety

/-! ### The words of a row of family F, by its low byte -/

theorem decodeWord_of_familyF {op : Word} (hf : family op = 0xF) : decodeWord op = decodeFamilyF op := by
  simp [decodeWord, hf]

theorem encoded_of_familyF_fieldNN {nn : Byte} {i : Word → Instr}
    (h : ∀ op, fieldNN op = nn → decodeFamilyF op = .ok (i op)) : Encoded 0xF0FF (wordXNN 0xF 0 nn) i :=
  encoded_of_family_fieldNN fun op hf hnn => (decodeWord_of_familyF hf).trans (h op hnn)

/-! ### The rows -/

theorem encoded_ldI : Encoded 0xF000 0xA000 (fun op => .ldI (fieldNNN op)) :=
  encoded_of_family (f := 0xA) fun _ hf => by simp [decodeWord, hf]

theorem encoded_addI : Encoded 0xF0FF 0xF01E (fun op => .addI (fieldX op)) :=
  encoded_of_familyF_fieldNN (nn := 0x1E) fun _ hnn => by simp [decodeFamilyF, hnn]

theorem encoded_ldF : Encoded 0xF0FF 0xF029 (fun op => .ldF (fieldX op)) :=
  encoded_of_familyF_fieldNN (nn := 0x29) fun _ hnn => by simp [decodeFamilyF, hnn]

theorem encoded_ldB : Encoded 0xF0FF 0xF033 (fun op => .ldB (fieldX op)) :=
  encoded_of_familyF_fieldNN (nn := 0x33) fun _ hnn => by simp [decodeFamilyF, hnn]

theorem encoded_stRegs : Encoded 0xF0FF 0xF055 (fun op => .stRegs (fieldX op)) :=
  encoded_of_familyF_fieldNN (nn := 0x55) fun _ hnn => by simp [decodeFamilyF, hnn]

theorem encoded_ldRegs : Encoded 0xF0FF 0xF065 (fun op => .ldRegs (fieldX op)) :=
  encoded_of_familyF_fieldNN (nn := 0x65) fun _ hnn => by simp [decodeFamilyF, hnn]

end Sys2Proof.Safety
end

section
/-! Index register and memory instructions (44_memory_ops.md). -/

namespace Sys2Proof.Machine

/-! ### Values of the index register (R262, R263) -/

theorem toNat_word_add_byte (w : Word) (b : Byte) : (w + b.setWidth 16).toNat = (w.toNat + b.toNat) % 65536 := by
  rw [BitVec.toNat_add, BitVec.toNat_setWidth_of_le (by decide)]

/-- The last glyph starts at 5 · 15, far below the top of the register. -/
theorem toNat_glyphAddress (d : Nibble) :
    (BitVec.ofNat 16 (Config.fontBase + Config.glyphBytes * d.toNat)).toNat = 5 * d.toNat := by
  have hd := d.isLt
  simp only [Config.fontBase, Config.glyphBytes, BitVec.toNat_ofNat]
  omega

/-! ### Digits, and blocks that pass the end of memory -/

theorem exec_ldF_of_digit {x d : Nibble} {s : State} (h : hexDigit (s.getV x) = some d) :
    exec (.ldF x) s =
      .next (s.setI (BitVec.ofNat 16 (Config.fontBase + Config.glyphBytes * d.toNat))).advance := by
  simp only [exec, execLdF, h]

theorem exec_ldF_of_not_digit {x : Nibble} {s : State} (h : hexDigit (s.getV x) = none) :
    exec (.ldF x) s = .next (s.raise .fontDigit (encode (.ldF x)) ((s.getV x).setWidth 16)) := by
  simp only [exec, execLdF, h]

theorem exec_ldB_of_past_end {x : Nibble} {s : State} (h : 0xFFF < s.i.toNat + 2) :
    exec (.ldB x) s = .next (s.raise .memRange (encode (.ldB x)) s.memRangeInfo) := by
  have hnone : s.storeBlock (bcdDigits (s.getV x)) = none :=
    State.storeBlock_eq_none_iff.2 (by simp only [length_bcdDigits, Config.memSize]; omega)
  simp only [exec, execLdB, hnone]

theorem exec_stRegs_of_past_end {x : Nibble} {s : State} (h : 0xFFF < s.i.toNat + x.toNat) :
    exec (.stRegs x) s = .next (s.raise .memRange (encode (.stRegs x)) s.memRangeInfo) := by
  have hnone : s.storeBlock (s.getVs 0 (x.toNat + 1)) = none :=
    State.storeBlock_eq_none_iff.2 (by simp only [State.length_getVs, Config.memSize]; omega)
  simp only [exec, execStRegs, hnone]

theorem exec_ldRegs_of_past_end {x : Nibble} {s : State} (h : 0xFFF < s.i.toNat + x.toNat) :
    exec (.ldRegs x) s = .next (s.raise .memRange (encode (.ldRegs x)) s.memRangeInfo) := by
  have hnone : s.loadBlock (x.toNat + 1) = none :=
    State.loadBlock_eq_none_iff.2 (by simp only [Config.memSize]; omega)
  simp only [exec, execLdRegs, hnone]

/-! ### Registers loaded from memory (R266) -/

theorem exec_ldRegs_of_fits {x : Nibble} {s : State} (h : s.i.toNat + x.toNat ≤ 0xFFF) :
    exec (.ldRegs x) s = .next (s.setVs 0 (Mem.readBytes s.mem s.i.toNat (x.toNat + 1))).advance := by
  have hload : s.loadBlock (x.toNat + 1) = some (Mem.readBytes s.mem s.i.toNat (x.toNat + 1)) :=
    State.loadBlock_eq_some_iff.2 ⟨.inr (by simp only [Config.memSize]; omega), rfl⟩
  simp only [exec, execLdRegs, hload]

/-- The registers from `V0` up to `V[x]` hold the bytes from `I` up; those above are as before. -/
theorem State.getV_setVs_readBytes (s : State) (a : Nat) (x z : Nibble) :
    (s.setVs 0 (Mem.readBytes s.mem a (x.toNat + 1))).getV z =
      if z.toNat ≤ x.toNat then s.readByte (a + z.toNat) else s.getV z := by
  have hx := x.isLt
  rw [State.getV_setVs _ _ _ (by rw [Mem.length_readBytes]; omega), Mem.length_readBytes]
  by_cases h : z.toNat ≤ x.toNat
  · have hlen : z.toNat < (Mem.readBytes s.mem a (x.toNat + 1)).length := by rw [Mem.length_readBytes]; omega
    rw [if_pos (by omega), if_pos h, Nat.sub_zero, List.getD_eq_getElem _ _ hlen, Mem.getElem_readBytes, State.readByte]
  · rw [if_neg (by omega), if_neg h]

end Sys2Proof.Machine

namespace Sys2Proof.Safety
open Sys2Proof.Machine

/-! ### Frames -/

theorem onlyI_setI_advance (s : State) (w : Word) :
    (s.setI w).advance = { s with i := w, pc := s.pc + 2 } ∧ SameRegs [] s (s.setI w).advance ∧
      SameBytes s (s.setI w).advance :=
  ⟨rfl, fun _ _ => rfl, fun _ => rfl⟩

/-- A store of `n` bytes at `I` changes those bytes alone, before `PC` advances. -/
theorem onlyBytes_storeBlock_advance {s t : State} {bytes : List Byte} {n : Nat} (h : s.storeBlock bytes = some t)
    (hn : bytes.length = n) :
    t.advance = { s with mem := t.advance.mem, pc := s.pc + 2 } ∧ SameRegs [] s t.advance ∧
      SameBytesOutside s.i.toNat n s t.advance := by
  obtain ⟨-, rfl⟩ := State.storeBlock_eq_some_iff.1 h
  refine ⟨rfl, fun _ _ => rfl, fun b hb => ?_⟩
  have hread := Mem.read_writeBytes s.mem s.i.toNat b bytes
  rwa [if_neg (by omega)] at hread

/-- A block of registers loaded changes the register file alone, before `PC` advances. -/
theorem onlyRegs_setVs_advance (s : State) (bytes : List Byte) :
    (s.setVs 0 bytes).advance = { s with v := (s.setVs 0 bytes).advance.v, pc := s.pc + 2 } ∧
      SameBytes s (s.setVs 0 bytes).advance := by
  obtain ⟨v, hv⟩ : ∃ v, s.setVs 0 bytes = { s with v := v } := ⟨_, s.setVs_eq 0 bytes⟩
  rw [hv]
  exact ⟨rfl, fun _ => rfl⟩

/-- The fault of an instruction whose block passes the end of memory (20_memory.md R84). -/
theorem faultsMemRange {i : Instr} {op : Word} {s : State}
    (hexec : exec i s = .next (s.raise .memRange (encode i) s.memRangeInfo)) (hword : encode i = op) :
    ∃ t info, exec i s = .next t ∧ info.toNat = max s.i.toNat 0x1000 ∧ Faulted 5 op info s t := by
  rw [hword] at hexec
  exact ⟨_, _, hexec, s.toNat_memRangeInfo, faulted_raise .memRange op _ s⟩

/-- Settles O28: both set `I` alone (`onlyI_setI_advance`); `NNN` fits, and the sum is taken modulo 65536. -/
theorem indexRegisterLoadsAndAdds : Obligations.IndexRegisterLoadsAndAdds := by
  unfold Obligations.IndexRegisterLoadsAndAdds
  exact ⟨encoded_ldI, encoded_addI,
    fun nnn s => ⟨_, rfl, toNat_jumpTarget nnn, onlyI_setI_advance s _⟩,
    fun x s => ⟨_, rfl, toNat_word_add_byte s.i (s.getV x), onlyI_setI_advance s _⟩⟩

/-- Settles O29: `hexDigit` separates the digit, whose glyph address is exact (`toNat_glyphAddress`), from the fault. -/
theorem fontAddressOrFault : Obligations.FontAddressOrFault := by
  unfold Obligations.FontAddressOrFault
  refine ⟨encoded_ldF, fun x s h => ?digit, fun op s hop h => ?faults⟩
  case digit =>
    obtain ⟨d, hd⟩ := Option.ne_none_iff_exists'.1 (hexDigit_eq_none_iff.not.2 (Nat.not_lt.2 h))
    refine ⟨_, exec_ldF_of_digit hd, ?_, onlyI_setI_advance s _⟩
    rw [hexDigit_eq_some_iff.1 hd]
    exact toNat_glyphAddress d
  case faults =>
    have hexec := exec_ldF_of_not_digit (hexDigit_eq_none_iff.2 h)
    rw [encoded_ldF.encode_eq hop] at hexec
    exact ⟨_, hexec, faulted_raise .fontDigit op _ s⟩

/-- Settles O30: the three digits are stored as one block at `I` (`Mem.read_of_storeBlock`). -/
theorem bcdStoresThreeDigits : Obligations.BcdStoresThreeDigits := by
  unfold Obligations.BcdStoresThreeDigits
  refine ⟨encoded_ldB, fun x s h => ?stores, fun op s hop h =>
    faultsMemRange (exec_ldB_of_past_end h) (encoded_ldB.encode_eq hop)⟩
  case stores =>
    have hstore := State.storeBlock_of_fits (s := s) (bytes := bcdDigits (s.getV x))
      (by simp only [length_bcdDigits, Config.memSize]; omega)
    refine ⟨_, exec_ldB_of_storeBlock hstore, ?hundreds, ?tens, ?units,
      onlyBytes_storeBlock_advance hstore (length_bcdDigits _)⟩
    case hundreds =>
      rw [← toNat_bcdDigits_hundreds]
      exact congrArg BitVec.toNat (Mem.read_of_storeBlock hstore (k := 0) (by simp))
    case tens =>
      rw [← toNat_bcdDigits_tens]
      exact congrArg BitVec.toNat (Mem.read_of_storeBlock hstore (k := 1) (by simp))
    case units =>
      rw [← toNat_bcdDigits_units]
      exact congrArg BitVec.toNat (Mem.read_of_storeBlock hstore (k := 2) (by simp))

/-- Settles O31: byte `k` of the block stored at `I` is `V[k]` (`State.getElem_getVs`). -/
theorem storeRegistersCopiesToMemory : Obligations.StoreRegistersCopiesToMemory := by
  unfold Obligations.StoreRegistersCopiesToMemory
  refine ⟨encoded_stRegs, fun x s h => ?stores, fun op s hop h =>
    faultsMemRange (exec_stRegs_of_past_end h) (encoded_stRegs.encode_eq hop)⟩
  case stores =>
    have hstore := State.storeBlock_of_fits (s := s) (bytes := s.getVs 0 (x.toNat + 1))
      (by simp only [State.length_getVs, Config.memSize]; omega)
    refine ⟨_, exec_stRegs_of_storeBlock hstore, fun k hk => ?bytes,
      onlyBytes_storeBlock_advance hstore (s.length_getVs 0 _)⟩
    case bytes =>
      have hread := Mem.read_of_storeBlock hstore (k := k) (by rw [State.length_getVs]; omega)
      rwa [State.getElem_getVs, Nat.zero_add] at hread

/-- Settles O32: `State.getV_setVs_readBytes` says what each register holds after the load. -/
theorem loadRegistersCopiesFromMemory : Obligations.LoadRegistersCopiesFromMemory := by
  unfold Obligations.LoadRegistersCopiesFromMemory
  refine ⟨encoded_ldRegs, fun x s h => ?loads, fun op s hop h =>
    faultsMemRange (exec_ldRegs_of_past_end h) (encoded_ldRegs.encode_eq hop)⟩
  case loads =>
    refine ⟨_, exec_ldRegs_of_fits h, fun z hz => ?loaded, fun z hz => ?kept, onlyRegs_setVs_advance s _⟩
    case loaded => rw [State.getV_advance, State.getV_setVs_readBytes, if_pos hz]
    case kept => rw [State.getV_advance, State.getV_setVs_readBytes, if_neg (Nat.not_le.2 hz)]

end Sys2Proof.Safety
end

section
/-! What toggling a list of cells does under `INV`, and the order of a sprite's pixels (45_draw.md R280 to R284). -/

namespace Sys2Proof.Machine

/-! ### Toggling the cells of a list in turn (R282) -/

theorem PixelIndex.Inv.active_toggleCell {p : PixelIndex} (h : p.Inv) (c d : Coord) :
    (p.toggleCell c).active d = (decide (d = c) ^^ p.active d) := by
  unfold PixelIndex.toggleCell
  split
  · next hc =>
    rw [h.active_deactivateCell]
    by_cases hd : d = c <;> simp [hd, hc]
  · next hc =>
    rw [p.active_activateCell]
    by_cases hd : d = c <;> simp [hd, hc]

theorem PixelIndex.Inv.active_toggleCell_of_ne {p : PixelIndex} (h : p.Inv) {c d : Coord} (hd : d ≠ c) :
    (p.toggleCell c).active d = p.active d := by
  simp [h.active_toggleCell, hd]

/-- A cell changes where it is one of the distinct cells toggled. -/
theorem PixelIndex.Inv.active_foldl_toggleCell {p : PixelIndex} (h : p.Inv) {cells : List Coord}
    (hcells : cells.Nodup) (d : Coord) :
    (cells.foldl PixelIndex.toggleCell p).active d = (decide (d ∈ cells) ^^ p.active d) := by
  induction cells generalizing p with
  | nil => simp
  | cons c rest ih =>
    obtain ⟨hc, hrest⟩ := List.nodup_cons.1 hcells
    rw [List.foldl_cons, ih (h.toggleCell c) hrest, h.active_toggleCell]
    by_cases hd : d = c
    · simp [hd, hc]
    · simp [hd]

/-- Distinct cells do not meet one another's toggles, so that the collision is whether one of them was active at the
start. -/
theorem drawCells_of_nodup {p : PixelIndex} (h : p.Inv) {cells : List Coord} (hcells : cells.Nodup) (col : Bool) :
    drawCells (cells.map (fun c => (c.x.val, c.y.val))) p col =
      .ok (cells.foldl PixelIndex.toggleCell p, col || cells.any p.active) := by
  induction cells generalizing p col with
  | nil => simp [drawCells]
  | cons c rest ih =>
    obtain ⟨hc, hrest⟩ := List.nodup_cons.1 hcells
    have hkept : rest.any (p.toggleCell c).active = rest.any p.active := by
      rw [Bool.eq_iff_iff, List.any_eq_true, List.any_eq_true]
      refine exists_congr fun d => and_congr_right fun hd => ?_
      rw [h.active_toggleCell_of_ne (ne_of_mem_of_not_mem hd hc)]
    rw [List.map_cons, drawCells_cons, ih (h.toggleCell c) hrest, List.foldl_cons, hkept, List.any_cons, Bool.or_assoc]

/-! ### The information of the fault (R284) -/

theorem drawInfo_eq {r c : Nat} (hc : c < 8) : drawInfo (r, c) = BitVec.ofNat 16 (r * 256 + c) := by
  have hc' : c < 2 ^ 8 := by omega
  rw [drawInfo, ← Nat.shiftLeft_add_eq_or_of_lt hc', Nat.shiftLeft_eq]

end Sys2Proof.Machine

namespace Sys2Proof.Safety
open Sys2Proof.Machine

/-! ### The pixels of a sprite in row-major order (R281, R283) -/

theorem pairwise_rowColumns (row : Byte) : (rowColumns row).Pairwise (· < ·) :=
  List.pairwise_lt_range.filter _

theorem pairwise_spriteBits (r : Nat) (rows : List Byte) :
    (spriteBits r rows).Pairwise (fun a b => RowMajorBefore a.1 a.2 b.1 b.2) := by
  induction rows generalizing r with
  | nil => exact .nil
  | cons row rest ih =>
    refine List.pairwise_append.2 ⟨?row, ih (r + 1), fun a ha b hb => ?later⟩
    case row => exact List.pairwise_map.2 ((pairwise_rowColumns row).imp fun hlt => .inr ⟨rfl, hlt⟩)
    case later =>
      obtain ⟨c, -, rfl⟩ := List.mem_map.1 ha
      exact .inl (mem_spriteBits.1 hb).1

theorem spriteBits_eq_flatMap (r : Nat) (m : Mem) (a n : Nat) :
    spriteBits r (Mem.readBytes m a n) =
      (List.range n).flatMap fun k => (rowColumns (Mem.read m (a + k))).map fun c => (r + k, c) := by
  induction n generalizing r a with
  | zero => rfl
  | succ n ih =>
    simp only [Mem.readBytes, spriteBits, ih, List.range_succ_eq_map, List.flatMap_cons, List.flatMap_map, Nat.add_zero,
      Nat.succ_eq_add_one, Nat.add_assoc, Nat.add_comm 1]

/-- The pixels of the sprite of `n` rows at `I`, as (row, column). -/
def spritePixels (s : State) (n : Nibble) : List (Nat × Nat) := spriteBits 0 (Mem.readBytes s.mem s.i.toNat n.toNat)

theorem pairwise_spritePixels (s : State) (n : Nibble) :
    (spritePixels s n).Pairwise (fun a b => RowMajorBefore a.1 a.2 b.1 b.2) :=
  pairwise_spriteBits 0 _

theorem nodup_spritePixels (s : State) (n : Nibble) : (spritePixels s n).Nodup :=
  (pairwise_spritePixels s n).imp fun {a b} h e => by
    subst e
    unfold RowMajorBefore at h
    omega

theorem mem_spritePixels {s : State} {n : Nibble} {b : Nat × Nat} :
    b ∈ spritePixels s n ↔ b.1 < n.toNat ∧ b.2 < 8 ∧ SpritePixel s b.1 b.2 := by
  simp only [spritePixels, mem_spriteBits, Mem.length_readBytes, Nat.zero_le, true_and, Nat.zero_add, Nat.sub_zero]
  refine and_congr_right fun hr => and_congr_right fun _ => ?_
  rw [List.getD_eq_getElem _ _ (by rwa [Mem.length_readBytes]), Mem.getElem_readBytes]
  rfl

/-! ### Pixels off the grid (R284) -/

theorem offGrid_iff {x0 y0 : Nat} {b : Nat × Nat} : offGrid x0 y0 b = true ↔ 63 < x0 + b.2 ∨ 31 < y0 + b.1 := by
  simp [offGrid]

theorem find?_offGrid_eq_none {s : State} {x y n : Nibble}
    (h : ∀ r c, r < n.toNat → c < 8 → ¬PixelOffGrid s x y r c) :
    (spritePixels s n).find? (offGrid (s.getV x).toNat (s.getV y).toNat) = none := by
  refine List.find?_eq_none.2 fun b hb hoff => ?_
  obtain ⟨hr, hc, hpixel⟩ := mem_spritePixels.1 hb
  exact h b.1 b.2 hr hc ⟨hpixel, offGrid_iff.1 hoff⟩

/-- The pixel that the draw finds first off the grid has none before it in row-major order. -/
theorem find?_offGrid_eq_some {s : State} {x y n : Nibble} {r c : Nat} (hr : r < n.toNat) (hc : c < 8)
    (hoff : PixelOffGrid s x y r c)
    (hfirst : ∀ r' c', c' < 8 → RowMajorBefore r' c' r c → ¬PixelOffGrid s x y r' c') :
    (spritePixels s n).find? (offGrid (s.getV x).toNat (s.getV y).toNat) = some (r, c) := by
  obtain ⟨hpixel, hout⟩ := hoff
  have hlisted : (r, c) ∈ spritePixels s n := mem_spritePixels.2 ⟨hr, hc, hpixel⟩
  obtain ⟨before, after, hsplit⟩ := List.append_of_mem hlisted
  refine List.find?_eq_some_iff_append.2 ⟨offGrid_iff.2 hout, before, after, hsplit, fun b hb => ?_⟩
  have hmem : b ∈ spritePixels s n := by simp [hsplit, hb]
  obtain ⟨-, hc', hpixel'⟩ := mem_spritePixels.1 hmem
  have horder := pairwise_spritePixels s n
  rw [hsplit] at horder
  have hbefore := (List.pairwise_append.1 horder).2.2 b hb (r, c) List.mem_cons_self
  rw [Bool.not_eq_true', Bool.eq_false_iff]
  exact fun hoff' => hfirst b.1 b.2 hc' hbefore ⟨hpixel', offGrid_iff.1 hoff'⟩

/-! ### The cells of the pixels (R282, R283) -/

theorem spriteTargets_eq_filterMap (s : State) (x y n : Nibble) :
    spriteTargets s x y n =
      (spritePixels s n).filterMap fun b => Coord.at? ((s.getV x).toNat + b.2) ((s.getV y).toNat + b.1) := by
  simp only [spriteTargets, spritePixels, spriteBits_eq_flatMap, List.filterMap_flatMap, List.filterMap_map, rowColumns,
    List.filterMap_filter, Function.comp_def, Nat.zero_add, State.readByte]
  rfl

theorem mem_spriteTargets {s : State} {x y n : Nibble} {d : Coord} :
    d ∈ spriteTargets s x y n ↔ SpriteCovers s x y n d := by
  simp only [spriteTargets_eq_filterMap, List.mem_filterMap, mem_spritePixels, Coord.at?_eq_some_iff, Prod.exists,
    SpriteCovers, and_assoc]

theorem nodup_spriteTargets (s : State) (x y n : Nibble) : (spriteTargets s x y n).Nodup := by
  rw [spriteTargets_eq_filterMap]
  refine (nodup_spritePixels s n).filterMap fun a b d ha hb => ?_
  obtain ⟨hax, hay⟩ := Coord.at?_eq_some_iff.1 ha
  obtain ⟨hbx, hby⟩ := Coord.at?_eq_some_iff.1 hb
  exact Prod.ext (by omega) (by omega)

/-- On the grid every pixel has its cell. -/
theorem map_spriteTargets {s : State} {x y n : Nibble} (h : ∀ r c, r < n.toNat → c < 8 → ¬PixelOffGrid s x y r c) :
    (spriteTargets s x y n).map (fun c => (c.x.val, c.y.val)) =
      (spritePixels s n).map fun b => ((s.getV x).toNat + b.2, (s.getV y).toNat + b.1) := by
  rw [spriteTargets_eq_filterMap, List.map_filterMap, ← List.filterMap_eq_map']
  refine List.filterMap_congr fun b hb => ?_
  obtain ⟨hr, hc, hpixel⟩ := mem_spritePixels.1 hb
  have honGrid : ¬(63 < (s.getV x).toNat + b.2 ∨ 31 < (s.getV y).toNat + b.1) :=
    fun hout => h b.1 b.2 hr hc ⟨hpixel, hout⟩
  rw [Coord.at?, dif_pos (by omega)]
  rfl

/-! ### The execute phase (R280) -/

theorem loadBlock_of_fits {s : State} {n : Nibble} (h : n.toNat = 0 ∨ s.i.toNat + n.toNat - 1 ≤ 0xFFF) :
    s.loadBlock n.toNat = some (Mem.readBytes s.mem s.i.toNat n.toNat) :=
  State.loadBlock_eq_some_iff.2 ⟨by simp only [Config.memSize]; omega, rfl⟩

theorem exec_drw_of_past_end {x y n : Nibble} {s : State} (hn : 0 < n.toNat) (h : 0xFFF < s.i.toNat + n.toNat - 1) :
    exec (.drw x y n) s = .next (s.raise .memRange (encode (.drw x y n)) s.memRangeInfo) := by
  have hnone : s.loadBlock n.toNat = none :=
    State.loadBlock_eq_none_iff.2 (by simp only [Config.memSize]; omega)
  simp only [exec, execDrw, hnone]

theorem exec_drw_of_offGrid {x y n : Nibble} {s : State} {b : Nat × Nat}
    (hfits : n.toNat = 0 ∨ s.i.toNat + n.toNat - 1 ≤ 0xFFF)
    (hoff : (spritePixels s n).find? (offGrid (s.getV x).toNat (s.getV y).toNat) = some b) :
    exec (.drw x y n) s = .next (s.raise .drawBounds (encode (.drw x y n)) (drawInfo b)) := by
  rw [spritePixels] at hoff
  simp only [exec, execDrw, loadBlock_of_fits hfits, hoff]

theorem exec_drw_of_onGrid {x y n : Nibble} {s : State} (hfits : n.toNat = 0 ∨ s.i.toNat + n.toNat - 1 ≤ 0xFFF)
    (honGrid : ∀ r c, r < n.toNat → c < 8 → ¬PixelOffGrid s x y r c) (hinv : s.index.Inv) :
    exec (.drw x y n) s = .next
      ((s.setIndex ((spriteTargets s x y n).foldl PixelIndex.toggleCell s.index)).setFlag
        ((spriteTargets s x y n).any s.index.active)).advance := by
  have hnone := find?_offGrid_eq_none honGrid
  have hdraw := drawCells_of_nodup hinv (nodup_spriteTargets s x y n) false
  rw [map_spriteTargets honGrid] at hdraw
  rw [spritePixels] at hnone hdraw
  simp only [exec, execDrw, loadBlock_of_fits hfits, hnone, hdraw, Bool.false_or]

/-! ### One draw -/

theorem encoded_drw : Encoded 0xF000 0xD000 (fun op => .drw (fieldX op) (fieldY op) (fieldN op)) :=
  encoded_of_family (f := 0xD) fun _ hf => by simp [decodeWord, hf]

/-- Settles O34: on the grid the draw toggles the distinct cells of `spriteTargets` (`exec_drw_of_onGrid`); off the grid
it finds the first pixel in row-major order (`find?_offGrid_eq_some`). -/
theorem drawFollowsItsRule : Obligations.DrawFollowsItsRule := by
  unfold Obligations.DrawFollowsItsRule
  refine ⟨encoded_drw, fun x y n s hfits honGrid hinv => ?draws, fun op s hop hn hpast =>
    faultsMemRange (exec_drw_of_past_end hn hpast) (encoded_drw.encode_eq hop),
    fun op s r c hop hfits hr hc hoff hfirst => ?offGrid⟩
  case draws =>
    have hactive := hinv.active_foldl_toggleCell (nodup_spriteTargets s x y n)
    refine ⟨_, exec_drw_of_onGrid hfits honGrid hinv, rfl, fun d hd => ?covered, fun d hd => ?uncovered,
      fun ⟨d, hd, hdActive⟩ => ?collision, fun hinactive => ?noCollision, rfl,
      fun _ hz => s.getV_setV_ne _ (List.ne_of_not_mem_cons hz), fun _ => rfl⟩
    case covered => exact (hactive d).trans (by simp [mem_spriteTargets.2 hd])
    case uncovered => exact (hactive d).trans (by simp [mem_spriteTargets.not.2 hd])
    case collision =>
      have hany : (spriteTargets s x y n).any s.index.active = true :=
        List.any_eq_true.2 ⟨d, mem_spriteTargets.2 hd, hdActive⟩
      simp [hany, flagByte]
    case noCollision =>
      have hany : (spriteTargets s x y n).any s.index.active = false :=
        List.any_eq_false.2 fun d hd => Bool.eq_false_iff.1 (hinactive d (mem_spriteTargets.1 hd))
      simp [hany, flagByte]
  case offGrid =>
    have hexec := exec_drw_of_offGrid (.inr hfits) (find?_offGrid_eq_some hr hc hoff hfirst)
    rw [encoded_drw.encode_eq hop, drawInfo_eq hc] at hexec
    exact ⟨_, hexec, faulted_raise .drawBounds op _ s⟩

/-! ### A second draw -/

theorem exec_keeps_inv {i : Instr} {s t : State} (h : exec i s = .next t) (hs : s.index.Inv) : t.index.Inv :=
  (indexEffect_of_exec h).preserves (P := PixelIndex.Inv) (fun _ => PixelIndex.Inv.clear)
    (fun _ c hp => hp.toggleCell c) hs

section SameSprite
variable {s t : State} {x y x' y' : Nibble} (hi : t.i = s.i) (hbytes : SameBytes s t)

include hi hbytes

theorem spritePixel_congr (r c : Nat) : SpritePixel t r c ↔ SpritePixel s r c := by
  rw [SpritePixel, SpritePixel, hi, hbytes]

theorem spriteCovers_congr (hx : t.getV x' = s.getV x) (hy : t.getV y' = s.getV y) (n : Nibble) (d : Coord) :
    SpriteCovers t x' y' n d ↔ SpriteCovers s x y n d := by
  simp only [SpriteCovers, spritePixel_congr hi hbytes, hx, hy]

theorem pixelOffGrid_congr (hx : t.getV x' = s.getV x) (hy : t.getV y' = s.getV y) (r c : Nat) :
    PixelOffGrid t x' y' r c ↔ PixelOffGrid s x y r c := by
  simp only [PixelOffGrid, spritePixel_congr hi hbytes, hx, hy]

end SameSprite

/-- Settles O35: both draws follow the rule (`drawFollowsItsRule`) and cover the same cells, since the first one leaves
`I` and memory; a cell toggled twice is as before, and the second draw collides where the first one turned a cell on. -/
theorem drawingTwiceRestoresTheDisplay : Obligations.DrawingTwiceRestoresTheDisplay := by
  unfold Obligations.DrawingTwiceRestoresTheDisplay
  intro x y x' y' n s hfits honGrid hinv
  obtain ⟨-, hrule, -, -⟩ := drawFollowsItsRule
  obtain ⟨t, hexec, -, htoggled, hkept, -, -, hframe, -, hbytes⟩ := hrule x y n s hfits honGrid hinv
  refine ⟨t, hexec, fun hx hy => ?second⟩
  have hi : t.i = s.i := by rw [hframe]
  have hcovers := spriteCovers_congr hi hbytes hx hy n
  have honGrid' : ∀ r c, r < n.toNat → c < 8 → ¬PixelOffGrid t x' y' r c := fun r c hr hc =>
    (pixelOffGrid_congr hi hbytes hx hy r c).not.2 (honGrid r c hr hc)
  obtain ⟨u, hexec', -, htoggled', hkept', hcollision, hnoCollision, -, -, -⟩ :=
    hrule x' y' n t (hi ▸ hfits) honGrid' (exec_keeps_inv hexec hinv)
  refine ⟨u, hexec', fun d => ?restored, fun ⟨d, hd, hinactive⟩ => hcollision ⟨d, (hcovers d).2 hd, ?turnedOn⟩,
    fun hactive => hnoCollision fun d hd => ?turnedOff⟩
  case restored =>
    by_cases hd : SpriteCovers s x y n d
    · rw [htoggled' d ((hcovers d).2 hd), htoggled d hd, Bool.not_not]
    · rw [hkept' d ((hcovers d).not.2 hd), hkept d hd]
  case turnedOn => rw [htoggled d hd, hinactive, Bool.not_false]
  case turnedOff =>
    have hd' := (hcovers d).1 hd
    rw [htoggled d hd', hactive d hd', Bool.not_true]

end Sys2Proof.Safety
end

section
/-! The rows of the opcode map for keys and timers (30_encoding.md R114, R115). -/

namespace Sys2Proof.Safety

theorem encoded_skp : Encoded 0xF0FF 0xE09E (fun op => .skp (fieldX op)) :=
  encoded_of_family_fieldNN (f := 0xE) (nn := 0x9E) fun _ hf hnn => by simp [decodeWord, decodeFamilyE, hf, hnn]

theorem encoded_sknp : Encoded 0xF0FF 0xE0A1 (fun op => .sknp (fieldX op)) :=
  encoded_of_family_fieldNN (f := 0xE) (nn := 0xA1) fun _ hf hnn => by simp [decodeWord, decodeFamilyE, hf, hnn]

theorem encoded_ldVxDt : Encoded 0xF0FF 0xF007 (fun op => .ldVxDt (fieldX op)) :=
  encoded_of_familyF_fieldNN (nn := 0x07) fun _ hnn => by simp [decodeFamilyF, hnn]

theorem encoded_ldVxK : Encoded 0xF0FF 0xF00A (fun op => .ldVxK (fieldX op)) :=
  encoded_of_familyF_fieldNN (nn := 0x0A) fun _ hnn => by simp [decodeFamilyF, hnn]

theorem encoded_ldDtVx : Encoded 0xF0FF 0xF015 (fun op => .ldDtVx (fieldX op)) :=
  encoded_of_familyF_fieldNN (nn := 0x15) fun _ hnn => by simp [decodeFamilyF, hnn]

theorem encoded_ldStVx : Encoded 0xF0FF 0xF018 (fun op => .ldStVx (fieldX op)) :=
  encoded_of_familyF_fieldNN (nn := 0x18) fun _ hnn => by simp [decodeFamilyF, hnn]

end Sys2Proof.Safety
end

section
/-! Keys and timers (46_timers_keys.md). -/

namespace Sys2Proof.Machine

/-! ### Skips on a key (R300, R301) -/

theorem exists_hexDigit {b : Byte} (h : b.toNat ≤ 0xF) : ∃ k, hexDigit b = some k ∧ b.toNat = k.toNat := by
  obtain ⟨k, hk⟩ := Option.ne_none_iff_exists'.1 (hexDigit_eq_none_iff.not.2 (Nat.not_lt.2 h))
  exact ⟨k, hk, hexDigit_eq_some_iff.1 hk⟩

theorem exec_skp_of_key {x : Nibble} {s : State} (h : (s.getV x).toNat ≤ 0xF) :
    exec (.skp x) s = .next (s.skipIf (s.key.getLsbD (s.getV x).toNat)) := by
  obtain ⟨k, hk, hvalue⟩ := exists_hexDigit h
  simp only [exec, execSkp, hk, State.keyDown, hvalue]

theorem exec_sknp_of_key {x : Nibble} {s : State} (h : (s.getV x).toNat ≤ 0xF) :
    exec (.sknp x) s = .next (s.skipIf (!s.key.getLsbD (s.getV x).toNat)) := by
  obtain ⟨k, hk, hvalue⟩ := exists_hexDigit h
  simp only [exec, execSknp, hk, State.keyDown, hvalue]

theorem exec_skp_of_no_key {x : Nibble} {s : State} (h : 0xF < (s.getV x).toNat) :
    exec (.skp x) s = .next (s.raise .keyIndex (encode (.skp x)) ((s.getV x).setWidth 16)) := by
  simp only [exec, execSkp, hexDigit_eq_none_iff.2 h]

theorem exec_sknp_of_no_key {x : Nibble} {s : State} (h : 0xF < (s.getV x).toNat) :
    exec (.sknp x) s = .next (s.raise .keyIndex (encode (.sknp x)) ((s.getV x).setWidth 16)) := by
  simp only [exec, execSknp, hexDigit_eq_none_iff.2 h]

/-! ### The lowest key that is down (R303) -/

theorem State.lowestKey_eq_none_iff {s : State} :
    s.lowestKey = none ↔ ∀ k, k < 16 → s.key.getLsbD k = false := by
  simp [State.lowestKey]

theorem State.lowestKey_eq_some_iff {s : State} {k : Nat} :
    s.lowestKey = some k ↔ k < 16 ∧ s.key.getLsbD k = true ∧ ∀ j, j < k → s.key.getLsbD j = false := by
  simp only [State.lowestKey, List.find?_range_eq_some, List.mem_range, Bool.not_eq_true']
  exact and_left_comm

theorem State.setV_getV_self (s : State) (x : Nibble) : s.setV x (s.getV x) = s := by
  simp [State.setV, State.getV]

/-- The wait writes back what `V[X]` and `PC` hold. -/
theorem exec_ldVxK_of_none {s : State} (h : s.lowestKey = none) (x : Nibble) : exec (.ldVxK x) s = .next s := by
  simp only [exec, execLdVxK, h, Option.map_none, Option.getD_none, State.setV_getV_self, Option.isSome_none]
  rfl

theorem exec_ldVxK_of_some {s : State} {k : Nat} (h : s.lowestKey = some k) (x : Nibble) :
    exec (.ldVxK x) s = .next (s.setV x (BitVec.ofNat 8 k)).advance := by
  simp only [exec, execLdVxK, h]
  rfl

end Sys2Proof.Machine

namespace Sys2Proof.Safety
open Sys2Proof.Machine

/-- The fault of a skip on a register that names no key. -/
theorem faultsKeyIndex {i : Instr} {op info : Word} {s : State}
    (hexec : exec i s = .next (s.raise .keyIndex (encode i) info)) (hword : encode i = op) :
    ∃ t, exec i s = .next t ∧ Faulted 7 op info s t := by
  rw [hword] at hexec
  exact ⟨_, hexec, faulted_raise .keyIndex op info s⟩

/-- Settles O36: where `V[X]` names a key both are `State.skipIf`, on its latched level; above, `FOP` is the word itself
(`Encoded.encode_eq`). -/
theorem keySkipsReadTheLatch : Obligations.KeySkipsReadTheLatch := by
  unfold Obligations.KeySkipsReadTheLatch
  exact ⟨encoded_skp, encoded_sknp,
    fun x s h => ⟨_, exec_skp_of_key h, State.skipIf_pc_of_iff Iff.rfl, onlyRegs_skipIf s _⟩,
    fun x s h => ⟨_, exec_sknp_of_key h, State.skipIf_pc_of_iff (Bool.not_eq_true' _).to_iff, onlyRegs_skipIf s _⟩,
    fun op s hop h => faultsKeyIndex (exec_skp_of_no_key h) (encoded_skp.encode_eq hop),
    fun op s hop h => faultsKeyIndex (exec_sknp_of_no_key h) (encoded_sknp.encode_eq hop)⟩

/-- Settles O37: the execute phase writes `DT` to `V[X]`; the timer step after it keeps `V[X]` and counts `DT`. -/
theorem delayTimerReadsBeforeItCounts : Obligations.DelayTimerReadsBeforeItCounts := by
  unfold Obligations.DelayTimerReadsBeforeItCounts
  exact ⟨encoded_ldVxDt, fun x s => ⟨_, rfl, s.getV_setV_same x s.dt, rfl, onlyRegs_setV_advance s x _⟩,
    fun keys rnd s hrunning hs hop => ⟨_, request_of_exec hrunning hs (encoded_ldVxDt _ hop) rfl hrunning,
      (latched keys rnd s).getV_setV_same _ _, toNat_countDown s.dt⟩⟩

/-- Settles O38: `State.lowestKey` separates the wait, after which the request is the timer step alone, from the store
of the lowest key, whose number fits in a byte. -/
theorem keyWaitTakesTheLowestKey : Obligations.KeyWaitTakesTheLowestKey := by
  unfold Obligations.KeyWaitTakesTheLowestKey
  refine ⟨encoded_ldVxK, fun x s h => exec_ldVxK_of_none (State.lowestKey_eq_none_iff.2 h) x,
    fun x s k hk hdown hlowest => ?stores, fun rnd s hrunning hs hop => ?waits⟩
  case stores =>
    refine ⟨_, exec_ldVxK_of_some (State.lowestKey_eq_some_iff.2 ⟨hk, hdown, hlowest⟩) x, ?key, rfl,
      onlyRegs_setV_advance s x _⟩
    case key =>
      rw [State.getV_advance, State.getV_setV_same]
      exact Nat.mod_eq_of_lt (by omega)
  case waits =>
    have hnone : (latched 0 rnd s).lowestKey = none :=
      State.lowestKey_eq_none_iff.2 fun _ _ => BitVec.getLsbD_zero
    exact ⟨_, request_of_exec hrunning hs (encoded_ldVxK _ hop) (exec_ldVxK_of_none hnone _) hrunning,
      toNat_countDown s.dt, toNat_countDown s.st, State.timerStep_tone_iff _, rfl⟩

/-- Settles O39: the execute phase sets the timer to `V[X]`, and the timer step after it counts that value and, of `ST`,
raises the tone at 1. -/
theorem timerSetCountsInTheSameStep : Obligations.TimerSetCountsInTheSameStep := by
  unfold Obligations.TimerSetCountsInTheSameStep
  exact ⟨encoded_ldDtVx, encoded_ldStVx,
    fun x s => ⟨_, rfl, rfl, rfl, fun _ _ => rfl, fun _ => rfl⟩,
    fun x s => ⟨_, rfl, rfl, rfl, fun _ _ => rfl, fun _ => rfl⟩,
    fun keys rnd s hrunning hs hop => ⟨_, request_of_exec hrunning hs (encoded_ldDtVx _ hop) rfl hrunning,
      toNat_countDown _⟩,
    fun keys rnd s hrunning hs hop => ⟨_, request_of_exec hrunning hs (encoded_ldStVx _ hop) rfl hrunning,
      toNat_countDown _, State.timerStep_tone_iff _⟩⟩

end Sys2Proof.Safety
end

section
/-! The clear handshake (60_exceptions.md R342). -/

namespace Sys2Proof.Machine

/-- The masked flag is `false` whatever it was, so an acknowledgement without a pending request changes nothing. -/
theorem State.ackClear_eq (s : State) : s.ackClear = { s with clearRequested := false } := by
  simp only [State.ackClear, State.ackIf, Bool.not_true, Bool.and_false]

end Sys2Proof.Machine

namespace Sys2Proof.Safety
open Sys2Proof.Machine

/-- Settles O48: the acknowledgement masks `clear_requested` with `false` and keeps every other field. -/
theorem clearAckClearsTheRequestAlone : Obligations.ClearAckClearsTheRequestAlone := by
  unfold Obligations.ClearAckClearsTheRequestAlone
  exact State.ackClear_eq

end Sys2Proof.Safety
end

section
/-! The opcode map and the decoder agree, and decoding undoes encoding (30_encoding.md R111 to R118). -/

namespace Sys2Proof.Safety

/-! ### A row and the word of its instruction -/

theorem encode_and_mask (i : Instr) : encode i &&& i.row.mask = i.row.value :=
  beq_iff_eq.1 i.row_takes_encode

/-- The row of `i` decodes the word of `i` to the instruction of its fields; where those fields are the operands of `i`,
that is `i` itself. -/
theorem Encoded.decodeWord_encode (i : Instr) {f : Word → Instr} (h : Encoded i.row.mask i.row.value f)
    (hfields : f (encode i) = i) : decodeWord (encode i) = .ok i :=
  (h (encode i) (encode_and_mask i)).trans (congrArg Except.ok hfields)

/-- One line for each constructor: its row, and the fields of its word. -/
theorem decodeWord_encode : ∀ i : Instr, decodeWord (encode i) = .ok i
  | .cls _ => encoded_cls.decodeWord_encode (.cls _) (by simp [encode])
  | .ret _ => encoded_ret.decodeWord_encode (.ret _) (by simp [encode])
  | .jp _ => encoded_jp.decodeWord_encode (.jp _) (by simp [encode])
  | .call _ => encoded_call.decodeWord_encode (.call _) (by simp [encode])
  | .seByte _ _ => encoded_seByte.decodeWord_encode (.seByte _ _) (by simp [encode])
  | .sneByte _ _ => encoded_sneByte.decodeWord_encode (.sneByte _ _) (by simp [encode])
  | .seReg _ _ _ => encoded_seReg.decodeWord_encode (.seReg _ _ _) (by simp [encode])
  | .ldByte _ _ => encoded_ldByte.decodeWord_encode (.ldByte _ _) (by simp [encode])
  | .addByte _ _ => encoded_addByte.decodeWord_encode (.addByte _ _) (by simp [encode])
  | .ldReg _ _ => encoded_ldReg.decodeWord_encode (.ldReg _ _) (by simp [encode])
  | .orReg _ _ => encoded_orReg.decodeWord_encode (.orReg _ _) (by simp [encode])
  | .andReg _ _ => encoded_andReg.decodeWord_encode (.andReg _ _) (by simp [encode])
  | .xorReg _ _ => encoded_xorReg.decodeWord_encode (.xorReg _ _) (by simp [encode])
  | .addReg _ _ => encoded_addReg.decodeWord_encode (.addReg _ _) (by simp [encode])
  | .subReg _ _ => encoded_subReg.decodeWord_encode (.subReg _ _) (by simp [encode])
  | .shr _ _ => encoded_shr.decodeWord_encode (.shr _ _) (by simp [encode])
  | .subnReg _ _ => encoded_subnReg.decodeWord_encode (.subnReg _ _) (by simp [encode])
  | .shl _ _ => encoded_shl.decodeWord_encode (.shl _ _) (by simp [encode])
  | .sneReg _ _ _ => encoded_sneReg.decodeWord_encode (.sneReg _ _ _) (by simp [encode])
  | .ldI _ => encoded_ldI.decodeWord_encode (.ldI _) (by simp [encode])
  | .jpV0 _ => encoded_jpV0.decodeWord_encode (.jpV0 _) (by simp [encode])
  | .rnd _ _ => encoded_rnd.decodeWord_encode (.rnd _ _) (by simp [encode])
  | .drw _ _ _ => encoded_drw.decodeWord_encode (.drw _ _ _) (by simp [encode])
  | .skp _ => encoded_skp.decodeWord_encode (.skp _) (by simp [encode])
  | .sknp _ => encoded_sknp.decodeWord_encode (.sknp _) (by simp [encode])
  | .ldVxDt _ => encoded_ldVxDt.decodeWord_encode (.ldVxDt _) (by simp [encode])
  | .ldVxK _ => encoded_ldVxK.decodeWord_encode (.ldVxK _) (by simp [encode])
  | .ldDtVx _ => encoded_ldDtVx.decodeWord_encode (.ldDtVx _) (by simp [encode])
  | .ldStVx _ => encoded_ldStVx.decodeWord_encode (.ldStVx _) (by simp [encode])
  | .addI _ => encoded_addI.decodeWord_encode (.addI _) (by simp [encode])
  | .ldF _ => encoded_ldF.decodeWord_encode (.ldF _) (by simp [encode])
  | .ldB _ => encoded_ldB.decodeWord_encode (.ldB _) (by simp [encode])
  | .stRegs _ => encoded_stRegs.decodeWord_encode (.stRegs _) (by simp [encode])
  | .ldRegs _ => encoded_ldRegs.decodeWord_encode (.ldRegs _) (by simp [encode])

/-! ### The words of the opcode map -/

/-- One entry for each row, in the order of the map. -/
theorem exists_encoded_of_mem_opcodeMap : ∀ r ∈ opcodeMap, ∃ f, Encoded r.mask r.value f := by
  simp only [opcodeMap, List.cons_append, List.nil_append, List.forall_mem_cons]
  exact ⟨⟨_, encoded_cls⟩, ⟨_, encoded_ret⟩, ⟨_, encoded_jp⟩, ⟨_, encoded_call⟩, ⟨_, encoded_seByte⟩,
    ⟨_, encoded_sneByte⟩, ⟨_, encoded_seReg⟩, ⟨_, encoded_ldByte⟩, ⟨_, encoded_addByte⟩, ⟨_, encoded_ldReg⟩,
    ⟨_, encoded_orReg⟩, ⟨_, encoded_andReg⟩, ⟨_, encoded_xorReg⟩, ⟨_, encoded_addReg⟩, ⟨_, encoded_subReg⟩,
    ⟨_, encoded_shr⟩, ⟨_, encoded_subnReg⟩, ⟨_, encoded_shl⟩, ⟨_, encoded_sneReg⟩, ⟨_, encoded_ldI⟩,
    ⟨_, encoded_jpV0⟩, ⟨_, encoded_rnd⟩, ⟨_, encoded_drw⟩, ⟨_, encoded_skp⟩, ⟨_, encoded_sknp⟩,
    ⟨_, encoded_ldVxDt⟩, ⟨_, encoded_ldVxK⟩, ⟨_, encoded_ldDtVx⟩, ⟨_, encoded_ldStVx⟩, ⟨_, encoded_addI⟩,
    ⟨_, encoded_ldF⟩, ⟨_, encoded_ldB⟩, ⟨_, encoded_stRegs⟩, ⟨_, encoded_ldRegs⟩, List.forall_mem_nil _⟩

theorem exists_decodeWord_of_wellFormed {op : Word} (h : wellFormedWord op = true) : ∃ i, decodeWord op = .ok i := by
  obtain ⟨r, hr, htakes⟩ := List.any_eq_true.1 h
  obtain ⟨f, hf⟩ := exists_encoded_of_mem_opcodeMap r hr
  exact ⟨f op, hf op (beq_iff_eq.1 htakes)⟩

/-- A word that both rows take has both their values under the two masks together. -/
theorem not_takes_both {r q : Row} (h : r.value &&& q.mask ≠ q.value &&& r.mask) (op : Word) :
    ¬(r.takes op = true ∧ q.takes op = true) := by
  rintro ⟨hr, hq⟩
  have hr' : op &&& r.mask = r.value := beq_iff_eq.1 hr
  have hq' : op &&& q.mask = q.value := beq_iff_eq.1 hq
  refine h ?_
  rw [← hr', ← hq', BitVec.and_assoc, BitVec.and_assoc, BitVec.and_comm r.mask]

/-- Settles O3: the row of each instruction reads the operands back from the fields of its word
(`decodeWord_encode`). -/
theorem decodeOfEncodeIsTheInstruction : Obligations.DecodeOfEncodeIsTheInstruction := by
  unfold Obligations.DecodeOfEncodeIsTheInstruction
  exact decodeWord_encode

/-- Settles O4: the decoder drops no bit of a word (`encode_of_decodeWord`). -/
theorem encodeOfDecodeIsTheWord : Obligations.EncodeOfDecodeIsTheWord := by
  unfold Obligations.EncodeOfDecodeIsTheWord
  exact fun _ _ h => encode_of_decodeWord h

/-- Settles O1: a row that takes a word decodes it, and the word is that of the instruction, which its row takes. -/
theorem decoderTakesExactlyTheOpcodeMap : Obligations.DecoderTakesExactlyTheOpcodeMap := by
  unfold Obligations.DecoderTakesExactlyTheOpcodeMap
  refine fun op => ⟨fun h => ?decodes, decodeWord_of_not_wellFormed⟩
  case decodes =>
    obtain ⟨i, hi⟩ := exists_decodeWord_of_wellFormed h
    have htakes := i.row_takes_encode
    rw [encode_of_decodeWord hi] at htakes
    exact ⟨i, hi, htakes⟩

/-- Settles O2: any two rows have different values under their common mask, so no word has both
(`not_takes_both`). -/
theorem opcodeMapRowsDoNotOverlap : Obligations.OpcodeMapRowsDoNotOverlap := by
  unfold Obligations.OpcodeMapRowsDoNotOverlap
  have hvalues : opcodeMap.Pairwise (fun r q => r.value &&& q.mask ≠ q.value &&& r.mask) := by decide
  exact hvalues.imp not_takes_both

/-- Settles O5: the decoder is run on the eleven words. -/
theorem workedWordsDecode : Obligations.WorkedWordsDecode := by
  unfold Obligations.WorkedWordsDecode
  decide

end Sys2Proof.Safety
end

section
/-! Memories in canonical form are equal where they read the same (10_state.md section 4), and the memory of the empty
reset. -/

namespace Sys2Proof.Machine

/-- Canonical memory lists an address exactly where it reads otherwise than unlisted, so its readings give its list. -/
theorem Mem.lookup_eq_of_wf {m : Mem} (h : Mem.wf m) (a : Nat) :
    lookup m a = if m.read a = Mem.unlisted a then none else some (m.read a) := by
  cases ha : lookup m a with
  | none => simp [Mem.read, ha]
  | some b =>
    have hb : b ≠ Mem.unlisted a := (h.2 _ (mem_of_lookup ha)).2
    simp [Mem.read, ha, hb]

theorem Mem.ext_of_wf {m n : Mem} (hm : Mem.wf m) (hn : Mem.wf n) (h : ∀ a, m.read a = n.read a) : m = n :=
  rising_ext hm.1 hn.1 fun a => by rw [Mem.lookup_eq_of_wf hm, Mem.lookup_eq_of_wf hn, h a]

theorem Mem.read_of_memSize_le {m : Mem} (h : Mem.wf m) {a : Nat} (ha : Config.memSize ≤ a) :
    m.read a = Mem.unlisted a := by
  cases hlisted : lookup m a with
  | none => simp [Mem.read, hlisted]
  | some b => exact absurd (h.2 _ (mem_of_lookup hlisted)).1 (Nat.not_lt.2 ha)

theorem Mem.unlisted_of_length_le {a : Nat} (h : fontData.length ≤ a) : Mem.unlisted a = 0 :=
  List.getD_eq_default _ _ h

/-- With `MEM_INIT` = 0 and no program, every address reads as unlisted: the font below 0x050, 0 above. -/
theorem Mem.read_image_zero_nil (a : Nat) : Mem.read (Mem.image (fun _ => 0) []) a = Mem.unlisted a := by
  rcases Nat.lt_or_ge a fontData.length with hfont | hfont
  · exact Mem.read_image_font _ _ hfont
  rcases Nat.lt_or_ge a Config.memSize with ha | ha
  · have hprog : a < Config.progBase ∨ Config.progBase + ([] : List Byte).length ≤ a := by
      rw [List.length_nil]
      omega
    rw [Mem.read_image_memInit _ _ hfont hprog ha, Mem.unlisted_of_length_le hfont]
  · exact Mem.read_of_memSize_le (Mem.wf_image _ (Nat.zero_le _)) ha

theorem Mem.image_zero_nil : Mem.image (fun _ => 0) [] = [] :=
  Mem.ext_of_wf (Mem.wf_image _ (Nat.zero_le _)) Mem.wf_nil Mem.read_image_zero_nil

end Sys2Proof.Machine

namespace Sys2Proof.Safety
open Sys2Proof.Machine

/-- Settles O45: the readings of a canonical memory give its list (`Mem.lookup_eq_of_wf`), and rising lists that look up
the same are equal. -/
theorem canonicalMemoriesWithTheSameBytesAreEqual : Obligations.CanonicalMemoriesWithTheSameBytesAreEqual := by
  unfold Obligations.CanonicalMemoriesWithTheSameBytesAreEqual
  exact fun _ _ => Mem.ext_of_wf

end Sys2Proof.Safety
end

section
/-! What the execute phase of each instruction writes (10_state.md R32 to R40; 41_cycle.md R175, R176). -/

namespace Sys2Proof.Safety
open Sys2Proof.Machine

/-! ### The effect of an execute phase -/

/-- Where an execute phase that pushes or pops nothing may leave `PC` (R176): at the same instruction, after it, past
the next one, or at the target of a jump. -/
def PcTarget (s : State) (w : Word) : Prop :=
  w = s.pc ∨ w = s.pc + 2 ∨ w = s.pc + 4 ∨ ∃ (nnn : Addr) (b : Byte), w = nnn.setWidth 16 + b.setWidth 16

/-- What the execute phase of `i` does to `s`, by what it writes beside `PC`. -/
inductive ExecEffect : Instr → State → State → Prop where
  | raised {i : Instr} {s : State} {c : Cause} (op info : Word) :
      c ≠ .indexBounds → ExecEffect i s (s.raise c op info)
  | registers {i : Instr} {s : State} (v : Vector Byte 16) (w : Word) :
      SameRegs (writtenRegs i) s { s with v := v, pc := w } → PcTarget s w →
      ExecEffect i s { s with v := v, pc := w }
  | indexRegister {i : Instr} {s : State} (w : Word) :
      ((∃ nnn, i = .ldI nnn) ∨ (∃ x, i = .addI x) ∨ ∃ x, i = .ldF x) → ExecEffect i s (s.setI w).advance
  | delayTimer {x : Nibble} {s : State} (b : Byte) : ExecEffect (.ldDtVx x) s (s.setDt b).advance
  | soundTimer {x : Nibble} {s : State} (b : Byte) : ExecEffect (.ldStVx x) s (s.setSt b).advance
  | stored {i : Instr} {s : State} {bytes : List Byte} :
      ((∃ x, i = .ldB x) ∨ ∃ x, i = .stRegs x) → Mem.inRange s.i.toNat bytes.length = true →
      ExecEffect i s (s.setMem (Mem.writeBytes s.mem s.i.toNat bytes)).advance
  | pushed {nnn : Addr} {s : State} (h : s.sp.val < 16) :
      ExecEffect (.call nnn) s (State.setPc
        { s with stack := s.stack.set s.sp.val s.pc h, sp := ⟨s.sp.val + 1, by omega⟩ } (nnn.setWidth 16))
  | popped {ign : Nibble} {s : State} (h : 0 < s.sp.val) :
      ExecEffect (.ret ign) s (State.setPc
        { s with sp := ⟨s.sp.val - 1, by omega⟩ } (s.stack[s.sp.val - 1]'(by omega) + 2))
  | cleared {ign : Nibble} {s : State} : ExecEffect (.cls ign) s ((s.setIndex s.index.clear).setClear true).advance
  | drawn {x y n : Nibble} {s : State} (p : PixelIndex) (collision : Bool) :
      ExecEffect (.drw x y n) s ((s.setIndex p).setFlag collision).advance

/-- The outcome is a next state, reached with such an effect. -/
def HasExecEffect (i : Instr) (s : State) (o : Host.Outcome State Fault Refusal) : Prop :=
  ∃ t, o = .next t ∧ ExecEffect i s t

theorem ExecEffect.next {i : Instr} {s t : State} (h : ExecEffect i s t) : HasExecEffect i s (.next t) :=
  ⟨t, rfl, h⟩

theorem hasExecEffect_raise {i : Instr} {c : Cause} (hc : c ≠ .indexBounds) (op info : Word) (s : State) :
    HasExecEffect i s (.next (s.raise c op info)) :=
  (ExecEffect.raised op info hc).next

/-! ### Instructions that write registers and `PC` alone -/

theorem ExecEffect.of_onlyRegs {i : Instr} {s t : State} (h : OnlyRegs (writtenRegs i) s t) (hpc : PcTarget s t.pc) :
    ExecEffect i s t := by
  obtain ⟨ht, hregs, -⟩ := h
  rw [ht] at hregs ⊢
  exact .registers _ _ hregs hpc

theorem pcTarget_advance (s : State) : PcTarget s (s.pc + 2) := .inr (.inl rfl)

theorem pcTarget_skipIf (s : State) (c : Bool) : PcTarget s (s.skipIf c).pc := by
  cases c
  · exact pcTarget_advance s
  · exact .inr (.inr (.inl rfl))

theorem hasExecEffect_setPc {i : Instr} (hi : writtenRegs i = []) {s : State} {w : Word} (hw : PcTarget s w) :
    HasExecEffect i s (.next (s.setPc w)) :=
  (ExecEffect.of_onlyRegs (hi ▸ onlyRegs_setPc s w) hw).next

theorem hasExecEffect_skipIf {i : Instr} (hi : writtenRegs i = []) (s : State) (c : Bool) :
    HasExecEffect i s (.next (s.skipIf c)) :=
  hasExecEffect_setPc hi (pcTarget_skipIf s c)

theorem hasExecEffect_setV {i : Instr} {x : Nibble} (hi : writtenRegs i = [x]) (s : State) (b : Byte) :
    HasExecEffect i s (.next (s.setV x b).advance) :=
  (ExecEffect.of_onlyRegs (hi ▸ onlyRegs_setV_advance s x b) (pcTarget_advance s)).next

theorem hasExecEffect_setResultFlag {i : Instr} {x : Nibble} (hi : writtenRegs i = [x, 0xF]) (s : State) (r : Byte)
    (flag : Bool) : HasExecEffect i s (.next (s.setResultFlag x r flag).advance) :=
  (ExecEffect.of_onlyRegs (hi ▸ onlyRegs_setResultFlag_advance s x r flag) (pcTarget_advance s)).next

/-- The target of `1NNN` is that of `BNNN` with 0 in `V0`. -/
theorem hasExecEffect_jp (nnn : Addr) (s : State) : HasExecEffect (.jp nnn) s (execJp nnn s) :=
  hasExecEffect_setPc rfl (.inr (.inr (.inr ⟨nnn, 0, (BitVec.add_zero _).symm⟩)))

theorem hasExecEffect_jpV0 (nnn : Addr) (s : State) : HasExecEffect (.jpV0 nnn) s (execJpV0 nnn s) :=
  hasExecEffect_setPc rfl (.inr (.inr (.inr ⟨nnn, s.getV 0, rfl⟩)))

theorem hasExecEffect_skp (x : Nibble) (s : State) : HasExecEffect (.skp x) s (execSkp x s) := by
  unfold execSkp
  split
  · exact hasExecEffect_raise (by decide) _ _ s
  · exact hasExecEffect_skipIf rfl s _

theorem hasExecEffect_sknp (x : Nibble) (s : State) : HasExecEffect (.sknp x) s (execSknp x s) := by
  unfold execSknp
  split
  · exact hasExecEffect_raise (by decide) _ _ s
  · exact hasExecEffect_skipIf rfl s _

theorem hasExecEffect_ldVxK (x : Nibble) (s : State) : HasExecEffect (.ldVxK x) s (exec (.ldVxK x) s) := by
  cases h : s.lowestKey with
  | none =>
    rw [exec_ldVxK_of_none h]
    exact (ExecEffect.of_onlyRegs (t := s) ⟨rfl, fun _ _ => rfl, fun _ => rfl⟩ (.inl rfl)).next
  | some k =>
    rw [exec_ldVxK_of_some h]
    exact hasExecEffect_setV rfl s _

theorem sameRegs_ldRegs (x : Nibble) (s : State) :
    SameRegs (writtenRegs (.ldRegs x)) s (s.setVs 0 (Mem.readBytes s.mem s.i.toNat (x.toNat + 1))).advance := by
  intro z hz
  have habove : ¬z.toNat ≤ x.toNat := fun hle =>
    hz (List.mem_map.2 ⟨z.toNat, List.mem_range.2 (Nat.lt_succ_of_le hle), by simp⟩)
  rw [State.getV_advance, State.getV_setVs_readBytes, if_neg habove]

theorem hasExecEffect_ldRegs (x : Nibble) (s : State) : HasExecEffect (.ldRegs x) s (execLdRegs x s) := by
  unfold execLdRegs
  split
  · exact hasExecEffect_raise (by decide) _ _ s
  · next h =>
    obtain ⟨-, rfl⟩ := State.loadBlock_eq_some_iff.1 h
    obtain ⟨hframe, hbytes⟩ := onlyRegs_setVs_advance s (Mem.readBytes s.mem s.i.toNat (x.toNat + 1))
    have hpc := congrArg State.pc hframe
    refine (ExecEffect.of_onlyRegs ⟨?_, sameRegs_ldRegs x s, hbytes⟩ (.inr (.inl hpc))).next
    rw [hpc]
    exact hframe

/-! ### The other instructions -/

theorem hasExecEffect_ldF (x : Nibble) (s : State) : HasExecEffect (.ldF x) s (execLdF x s) := by
  unfold execLdF
  split
  · exact hasExecEffect_raise (by decide) _ _ s
  · exact (ExecEffect.indexRegister _ (.inr (.inr ⟨x, rfl⟩))).next

theorem hasExecEffect_storeBlock {i : Instr} (hi : (∃ x, i = .ldB x) ∨ ∃ x, i = .stRegs x) {s t : State}
    {bytes : List Byte} (h : s.storeBlock bytes = some t) : HasExecEffect i s (.next t.advance) := by
  obtain ⟨hrange, rfl⟩ := State.storeBlock_eq_some_iff.1 h
  exact (ExecEffect.stored hi ((Mem.inRange_iff _ _).2 hrange)).next

theorem hasExecEffect_ldB (x : Nibble) (s : State) : HasExecEffect (.ldB x) s (execLdB x s) := by
  unfold execLdB
  split
  · exact hasExecEffect_raise (by decide) _ _ s
  · next h => exact hasExecEffect_storeBlock (.inl ⟨x, rfl⟩) h

theorem hasExecEffect_stRegs (x : Nibble) (s : State) : HasExecEffect (.stRegs x) s (execStRegs x s) := by
  unfold execStRegs
  split
  · exact hasExecEffect_raise (by decide) _ _ s
  · next h => exact hasExecEffect_storeBlock (.inr ⟨x, rfl⟩) h

theorem hasExecEffect_ret (ign : Nibble) (s : State) : HasExecEffect (.ret ign) s (exec (.ret ign) s) := by
  rcases Nat.eq_zero_or_pos s.sp.val with h | h
  · rw [exec_ret_of_empty h]
    exact hasExecEffect_raise (by decide) _ _ s
  · rw [exec_ret_of_pos h]
    exact (ExecEffect.popped h).next

theorem hasExecEffect_call (nnn : Addr) (s : State) : HasExecEffect (.call nnn) s (exec (.call nnn) s) := by
  rcases Nat.lt_or_ge s.sp.val 16 with h | h
  · rw [exec_call_of_lt h]
    exact (ExecEffect.pushed h).next
  · rw [exec_call_of_full (by omega)]
    exact hasExecEffect_raise (by decide) _ _ s

theorem hasExecEffect_drw (x y n : Nibble) (s : State) : HasExecEffect (.drw x y n) s (execDrw x y n s) := by
  unfold execDrw
  split
  · exact hasExecEffect_raise (by decide) _ _ s
  · split
    · exact hasExecEffect_raise (by decide) _ _ s
    · next honGrid =>
      obtain ⟨cells, hit, hdraw⟩ := drawCells_of_onGrid honGrid s.index
      rw [hdraw]
      exact (ExecEffect.drawn _ _).next

/-- One line for each constructor, in the table's order. -/
theorem exec_hasExecEffect (i : Instr) (s : State) : HasExecEffect i s (exec i s) := by
  cases i with
  | cls ign => exact ExecEffect.cleared.next
  | ret ign => exact hasExecEffect_ret ign s
  | jp nnn => exact hasExecEffect_jp nnn s
  | call nnn => exact hasExecEffect_call nnn s
  | seByte x nn => exact hasExecEffect_skipIf rfl s _
  | sneByte x nn => exact hasExecEffect_skipIf rfl s _
  | seReg x y ign => exact hasExecEffect_skipIf rfl s _
  | ldByte x nn => exact hasExecEffect_setV rfl s _
  | addByte x nn => exact hasExecEffect_setV rfl s _
  | ldReg x y => exact hasExecEffect_setV rfl s _
  | orReg x y => exact hasExecEffect_setV rfl s _
  | andReg x y => exact hasExecEffect_setV rfl s _
  | xorReg x y => exact hasExecEffect_setV rfl s _
  | addReg x y => exact hasExecEffect_setResultFlag rfl s _ _
  | subReg x y => exact hasExecEffect_setResultFlag rfl s _ _
  | shr x ign => exact hasExecEffect_setResultFlag rfl s _ _
  | subnReg x y => exact hasExecEffect_setResultFlag rfl s _ _
  | shl x ign => exact hasExecEffect_setResultFlag rfl s _ _
  | sneReg x y ign => exact hasExecEffect_skipIf rfl s _
  | ldI nnn => exact (ExecEffect.indexRegister _ (.inl ⟨nnn, rfl⟩)).next
  | jpV0 nnn => exact hasExecEffect_jpV0 nnn s
  | rnd x nn => exact hasExecEffect_setV rfl s _
  | drw x y n => exact hasExecEffect_drw x y n s
  | skp x => exact hasExecEffect_skp x s
  | sknp x => exact hasExecEffect_sknp x s
  | ldVxDt x => exact hasExecEffect_setV rfl s _
  | ldVxK x => exact hasExecEffect_ldVxK x s
  | ldDtVx x => exact (ExecEffect.delayTimer _).next
  | ldStVx x => exact (ExecEffect.soundTimer _).next
  | addI x => exact (ExecEffect.indexRegister _ (.inr (.inl ⟨x, rfl⟩))).next
  | ldF x => exact hasExecEffect_ldF x s
  | ldB x => exact hasExecEffect_ldB x s
  | stRegs x => exact hasExecEffect_stRegs x s
  | ldRegs x => exact hasExecEffect_ldRegs x s

theorem execEffect_of_exec {i : Instr} {s t : State} (h : exec i s = .next t) : ExecEffect i s t := by
  obtain ⟨u, hu, heffect⟩ := exec_hasExecEffect i s
  rw [h] at hu
  exact Host.Outcome.next.inj hu ▸ heffect

/-- An effect that is no fault keeps `STATUS`, the latches and the outputs. -/
theorem ExecEffect.completes_or_raised {i : Instr} {s t : State} (h : ExecEffect i s t) :
    Completes s t ∨ ∃ (c : Cause) (op info : Word), c ≠ .indexBounds ∧ t = s.raise c op info := by
  cases h with
  | raised op info hc => exact .inr ⟨_, op, info, hc, rfl⟩
  | _ => exact .inl rfl

/-! ### Who writes what -/

/-- Settles O40: the effect that writes memory is that of `FX33` and `FX55`. -/
theorem onlyBcdAndStoreRegistersWriteMemory : Obligations.OnlyBcdAndStoreRegistersWriteMemory := by
  unfold Obligations.OnlyBcdAndStoreRegistersWriteMemory
  intro i s t a h hne
  cases execEffect_of_exec h with
  | stored hwriter _ => exact hwriter
  | _ => exact absurd rfl hne

/-- Settles O42: each effect keeps a field, or is that of an instruction listed for it. -/
theorem onlyTheirInstructionsWriteIStackAndTimers : Obligations.OnlyTheirInstructionsWriteIStackAndTimers := by
  unfold Obligations.OnlyTheirInstructionsWriteIStackAndTimers
  intro i s t h
  cases execEffect_of_exec h with
  | indexRegister w hwriter => simp [hwriter]
  | _ => simp

/-- Settles O43: `ExecEffect.registers` keeps the registers the table does not give, a draw writes `VF` alone, and no
other effect writes a register. -/
theorem registerWritesFollowTheTable : Obligations.RegisterWritesFollowTheTable := by
  unfold Obligations.RegisterWritesFollowTheTable
  intro i s t h
  cases execEffect_of_exec h with
  | registers v w hregs _ => exact hregs
  | drawn p collision =>
    intro z hz
    rw [State.getV_advance, State.getV_setFlag, if_neg (List.ne_of_not_mem_cons hz), State.getV_setIndex]
  | _ => exact fun _ _ => rfl

/-- Settles O6: the ignored bits are read only where a return faults, which records the whole word in `FOP`. -/
theorem ignoredBitsHaveNoEffect : Obligations.IgnoredBitsHaveNoEffect := by
  unfold Obligations.IgnoredBitsHaveNoEffect
  refine ⟨fun _ _ _ => rfl, fun _ _ _ _ _ => rfl, fun _ _ _ _ _ => rfl, fun _ _ _ _ => rfl, fun _ _ _ _ => rfl,
    fun a b s => ?ret⟩
  rcases Nat.eq_zero_or_pos s.sp.val with h | h
  · exact ⟨_, _, exec_ret_of_empty h a, exec_ret_of_empty h b, rfl, fun hne => absurd h hne⟩
  · exact ⟨_, _, exec_ret_of_pos h a, exec_ret_of_pos h b, rfl, fun _ => rfl⟩

end Sys2Proof.Safety
end

section
/-! What a request does, and that it keeps the invariants of memory, control flow, `STATUS` and the diagnostic
(41_cycle.md R176, R179; 60_exceptions.md R323, R324, R331). -/

namespace Sys2Proof.Machine

theorem Cause.toNat_code_le {c : Cause} (h : c ≠ .indexBounds) : c.code.toNat ≤ 8 := by
  cases c with
  | indexBounds => exact absurd rfl h
  | _ => decide

theorem Completes.loadError {s t : State} (h : Completes s t) : t.loadError = s.loadError := by
  unfold Completes at h
  rw [h]

theorem Completes.out {s t : State} (h : Completes s t) : t.out = s.out := by
  unfold Completes at h
  rw [h]

end Sys2Proof.Machine

namespace Sys2Proof.Safety
open Sys2Proof.Machine

/-! ### Every request answers -/

theorem exists_exec (i : Instr) (s : State) : ∃ t, exec i s = .next t := by
  obtain ⟨t, ht, -⟩ := exec_hasExecEffect i s
  exact ⟨t, ht⟩

theorem exists_request (s : State) (keys : BitVec 16) (rnd : Byte) : ∃ t, s.request keys rnd = .next t := by
  rcases s.request_cases keys rnd with
    ⟨-, hreq⟩ | ⟨-, c, -, hreq⟩ | ⟨-, op, e, -, -, hreq⟩ | ⟨-, op, i, -, -, hreq⟩
  case inr.inr.inr =>
    obtain ⟨u, hexec⟩ := exists_exec i (s.ready keys rnd)
    exact ⟨_, hreq.trans (congrArg (finishStep s) hexec)⟩
  all_goals exact ⟨_, hreq⟩

/-- Settles O13: each instruction has an effect, and a step is a request of the host's turn. -/
theorem everyInstructionAndStepAnswers : Obligations.EveryInstructionAndStepAnswers := by
  unfold Obligations.EveryInstructionAndStepAnswers
  exact ⟨exists_exec, fun s => exists_request s.afterTurn _ _⟩

/-! ### The effect of a request -/

/-- What a request does to `s`: nothing, a fault raised on `s`, an unknown opcode's diagnostic, or the effect of an
instruction that completes. -/
inductive RequestEffect (keys : BitVec 16) (rnd : Byte) (s : State) : State → Prop where
  | halted : s.status.halted = true → RequestEffect keys rnd s s.quiet
  | faulted {c : Cause} (op info : Word) : s.status.halted = false → c ≠ .indexBounds →
      RequestEffect keys rnd s (s.raise c op info)
  | unknown {op : Word} : s.status.halted = false → Fetchable s → wellFormedWord op = false →
      RequestEffect keys rnd s ((s.ready keys rnd).unknownOpcode op).timerStep
  | executed {i : Instr} {u : State} : s.status.halted = false → Fetchable s →
      ExecEffect i (s.ready keys rnd) u → Completes (s.ready keys rnd) u → RequestEffect keys rnd s u.timerStep

theorem not_wellFormed_of_decodeWord_error {op : Word} {e : DecodeError} (h : decodeWord op = .error e) :
    wellFormedWord op = false := by
  refine Bool.eq_false_iff.2 fun hword => ?_
  obtain ⟨i, hi⟩ := exists_decodeWord_of_wellFormed hword
  rw [h] at hi
  cases hi

theorem ne_indexBounds_of_fetch_error {s : State} {c : Cause} (h : s.fetch = .error c) : c ≠ .indexBounds := by
  rintro rfl
  exact absurd (State.fetch_error_cause h) (by decide)

theorem requestEffect_of_request {keys : BitVec 16} {rnd : Byte} {s t : State} (h : s.request keys rnd = .next t) :
    RequestEffect keys rnd s t := by
  rcases s.request_cases keys rnd with
    ⟨hhalted, hreq⟩ | ⟨hrunning, c, hfetch, hreq⟩ | ⟨hrunning, op, e, hfetch, hdecode, hreq⟩ |
    ⟨hrunning, op, i, hfetch, hdecode, hreq⟩
  case inl =>
    rw [hreq] at h
    cases h
    exact .halted hhalted
  case inr.inl =>
    rw [hreq] at h
    cases h
    exact .faulted _ _ hrunning (ne_indexBounds_of_fetch_error hfetch)
  case inr.inr.inl =>
    rw [hreq] at h
    cases h
    exact .unknown hrunning (fetchable_of_fetch_ok hfetch).1 (not_wellFormed_of_decodeWord_error hdecode)
  case inr.inr.inr =>
    obtain ⟨u, hexec, heffect⟩ := exec_hasExecEffect i (s.ready keys rnd)
    rw [hreq, hexec] at h
    rcases heffect.completes_or_raised with hu | ⟨c, op', info, hc, rfl⟩
    · have hcompleted : u.status.halted = false := (congrArg Status.halted hu.status).trans hrunning
      rw [finishStep_running s hcompleted] at h
      cases h
      exact .executed hrunning (fetchable_of_fetch_ok hfetch).1 heffect hu
    · rw [finishStep_raise] at h
      cases h
      exact .faulted op' info hrunning hc

/-! ### Memory -/

theorem ExecEffect.keeps_memoryCanonical {i : Instr} {s t : State} (h : ExecEffect i s t) (hs : MemoryCanonical s) :
    MemoryCanonical t := by
  cases h with
  | stored _ hrange => exact Mem.wf_writeBytes_inRange hs hrange
  | _ => exact hs

theorem request_keeps_memoryCanonical {keys : BitVec 16} {rnd : Byte} {s t : State}
    (h : s.request keys rnd = .next t) (hs : MemoryCanonical s) : MemoryCanonical t := by
  cases requestEffect_of_request h with
  | executed _ _ heffect _ => exact heffect.keeps_memoryCanonical hs
  | _ => exact hs

/-- Settles O54: the host's turn leaves memory, and of the effects of its request only a store inside the address space
writes it. -/
theorem stepKeepsMemoryCanonical : Obligations.StepKeepsMemoryCanonical := by
  unfold Obligations.StepKeepsMemoryCanonical
  intro s t hs h
  have hturn : MemoryCanonical s.afterTurn := hs
  exact request_keeps_memoryCanonical h hturn

/-! ### Control flow (R176) -/

/-- The highest target is that of `BNNN` with `NNN` = 0xFFF and `V0` = 0xFF. -/
theorem PcTarget.toNat_le {s : State} {w : Word} (hw : PcTarget s w) (hs : Fetchable s) : w.toNat ≤ 0x10FE := by
  obtain ⟨-, hhigh, -⟩ := hs
  rcases hw with rfl | rfl | rfl | ⟨nnn, b, rfl⟩
  · omega
  · bv_omega
  · bv_omega
  · rw [toNat_jumpTarget_add]
    omega

theorem ExecEffect.keeps_flowBounded {i : Instr} {s t : State} (h : ExecEffect i s t) (hfetch : Fetchable s)
    (hs : FlowBounded s) : FlowBounded t := by
  obtain ⟨hpc, hstack⟩ := hs
  cases h with
  | raised _ _ _ => exact ⟨hpc, hstack⟩
  | registers _ _ _ hw => exact ⟨hw.toNat_le hfetch, hstack⟩
  | @pushed nnn _ hroom =>
    refine ⟨?target, fun k hk => ?slots⟩
    case target =>
      rw [State.setPc_pc, toNat_jumpTarget]
      omega
    case slots =>
      simp only [State.setPc_stack, Vector.getElem_set]
      split
      · exact hfetch
      · next hne =>
        have hdepth : k < s.sp.val + 1 := hk
        exact hstack k (by omega)
  | popped hdepth =>
    obtain ⟨-, htop, -⟩ := hstack (s.sp.val - 1) (by omega)
    refine ⟨?resume, fun k hk => hstack k (Nat.lt_of_lt_of_le hk (Nat.sub_le _ _))⟩
    case resume =>
      rw [State.setPc_pc]
      bv_omega
  | _ => exact ⟨(pcTarget_advance s).toNat_le hfetch, hstack⟩

theorem request_keeps_flowBounded {keys : BitVec 16} {rnd : Byte} {s t : State}
    (h : s.request keys rnd = .next t) (hs : FlowBounded s) : FlowBounded t := by
  cases requestEffect_of_request h with
  | unknown _ hfetch _ => exact ⟨(pcTarget_advance s).toNat_le hfetch, hs.2⟩
  | executed _ hfetch heffect _ => exact heffect.keeps_flowBounded hfetch hs
  | _ => exact hs

/-- Settles O56: an instruction runs at a fetchable `PC`, from which no target passes 0x10FE, and a call pushes that
`PC`. -/
theorem stepKeepsTheFlowBounded : Obligations.StepKeepsTheFlowBounded := by
  unfold Obligations.StepKeepsTheFlowBounded
  intro s t hs h
  have hturn : FlowBounded s.afterTurn := hs
  exact request_keeps_flowBounded h hturn

/-! ### `STATUS` and the diagnostic -/

theorem statusLegal_of_clear {t : State} (hstatus : t.status = Status.clear) (hload : t.loadError = false) :
    StatusLegal t := by
  simp [StatusLegal, hstatus, hload, Status.clear]

/-- A fault has a cause, so it is no refused load. -/
theorem statusLegal_raise {s : State} {c : Cause} (hload : s.loadError = false) (hc : c ≠ .indexBounds)
    (op info : Word) : StatusLegal (s.raise c op info) :=
  ⟨fun hrunning => (Bool.false_ne_true hrunning.symm).elim,
    fun _ => iff_of_false (ne_true_of_eq_false hload) c.code_ne_zero, Cause.toNat_code_le hc, fun _ => rfl⟩

theorem request_keeps_statusLegal {keys : BitVec 16} {rnd : Byte} {s t : State}
    (h : s.request keys rnd = .next t) (hs : StatusLegal s) : StatusLegal t := by
  have hclear := hs.1
  cases requestEffect_of_request h with
  | halted _ => exact hs
  | faulted op info hrunning hc => exact statusLegal_raise (hclear hrunning).2 hc op info
  | unknown hrunning _ _ =>
    obtain ⟨hstatus, hload⟩ := hclear hrunning
    exact statusLegal_of_clear hstatus hload
  | executed hrunning _ _ hu =>
    obtain ⟨hstatus, hload⟩ := hclear hrunning
    exact statusLegal_of_clear (hu.status.trans hstatus) (hu.loadError.trans hload)

theorem diagnosticLegal_of_none {t : State} {tone : Bool} (h : t.out = ⟨tone, false, 0, 0⟩) : DiagnosticLegal t := by
  simp [DiagnosticLegal, h]

/-- A request makes the outputs quiet before its execute phase, and only an unknown opcode sets the diagnostic. -/
theorem request_gives_diagnosticLegal {keys : BitVec 16} {rnd : Byte} {s t : State}
    (h : s.request keys rnd = .next t) : DiagnosticLegal t := by
  cases requestEffect_of_request h with
  | halted _ => exact diagnosticLegal_of_none rfl
  | faulted _ _ _ _ => exact diagnosticLegal_of_none rfl
  | unknown _ _ hword => exact ⟨fun _ => ⟨rfl, hword⟩, fun hvalid => by cases hvalid⟩
  | @executed _ u _ _ _ hu =>
    refine diagnosticLegal_of_none (tone := u.st == 1) ?_
    rw [State.timerStep_out, hu.out]
    rfl

/-- Settles O57: a fault is raised on a running block, whose `STATUS` was clear; a completed step keeps `STATUS`. The
diagnostic is legal after every request. -/
theorem stepKeepsStatusAndDiagnosticLegal : Obligations.StepKeepsStatusAndDiagnosticLegal := by
  unfold Obligations.StepKeepsStatusAndDiagnosticLegal
  refine ⟨fun s t hs h => ?status, fun s t _ h => request_gives_diagnosticLegal (s := s.afterTurn) h⟩
  case status =>
    have hturn : StatusLegal s.afterTurn := hs
    exact request_keeps_statusLegal h hturn

end Sys2Proof.Safety
end

section
/-! The state after a reset, and the moves of the host (60_exceptions.md R345; 70_reset_and_hazards.md). -/

namespace Sys2Proof.Machine

theorem State.hostReset_of_too_long (s other : State) (memInit : Nat → Byte) {prog : List Byte}
    (h : Config.progMax < prog.length) :
    s.hostReset memInit prog other =
      { other with
        loadError := true
        status := { other.status with halted := true, cause := 0 }
        schedule := s.schedule
        turn := s.turn } := by
  have hunfit : ¬wellFormedBlob prog = true := by simpa [wellFormedBlob] using h
  exact if_neg hunfit

end Sys2Proof.Machine

namespace Sys2Proof.Reset
open Sys2Proof.Machine Sys2Proof.Safety

/-! ### A refused reset and the empty reset -/

/-- Settles O51: the block is halted, so a request makes the outputs quiet and changes nothing else. -/
theorem resetRefusesALongProgram : Obligations.ResetRefusesALongProgram := by
  unfold Obligations.ResetRefusesALongProgram
  intro s other memInit prog hlong
  exact ⟨_, s.hostReset_of_too_long other memInit hlong, rfl, rfl, rfl, State.request_halted rfl⟩

/-- Settles O52: the memory of the reset reads as unlisted everywhere, so nothing is listed (`Mem.image_zero_nil`). -/
theorem stateResetIsAReset : Obligations.StateResetIsAReset := by
  unfold Obligations.StateResetIsAReset
  intro other
  rw [State.hostReset_of_fits _ _ _ (Nat.zero_le _), Mem.image_zero_nil]
  rfl

/-! ### The invariants after a reset -/

/-- No cell is active and the list is empty. -/
theorem indexConsistent_reset : IndexConsistent State.reset :=
  ⟨PixelIndex.wf_empty, PixelIndex.inv_iff.2 fun _ _ => by simp [State.reset, PixelIndex.empty, PixelIndex.cellAt]⟩

theorem flowBounded_reset : FlowBounded State.reset :=
  ⟨by decide, fun _ hk => absurd hk (Nat.not_lt_zero _)⟩

theorem inv_reset : Inv State.reset :=
  ⟨Mem.wf_nil, indexConsistent_reset, flowBounded_reset, statusLegal_of_clear rfl rfl, diagnosticLegal_of_none rfl⟩

/-- Settles O53: an empty memory, index and stack, a clear `STATUS` and quiet outputs meet them. -/
theorem resetMeetsTheInvariants : Obligations.ResetMeetsTheInvariants := by
  unfold Obligations.ResetMeetsTheInvariants
  exact inv_reset

/-! ### The moves of the host -/

theorem request_keeps_inv {keys : BitVec 16} {rnd : Byte} {s t : State} (h : s.request keys rnd = .next t)
    (hs : Inv s) : Inv t := by
  obtain ⟨hmem, hindex, hflow, hstatus, -⟩ := hs
  exact ⟨request_keeps_memoryCanonical h hmem, request_keeps_indexConsistent h hindex,
    request_keeps_flowBounded h hflow, request_keeps_statusLegal h hstatus, request_gives_diagnosticLegal h⟩

/-- A refused load is the one halt without a cause, and its state is otherwise one that meets the invariants. A load
that fits differs from `State.reset` in its memory alone. -/
theorem inv_hostReset (s : State) (memInit : Nat → Byte) (prog : List Byte) {other : State} (hother : Inv other) :
    Inv (s.hostReset memInit prog other) := by
  rcases Nat.lt_or_ge Config.progMax prog.length with hlong | hfits
  · rw [State.hostReset_of_too_long s other memInit hlong]
    obtain ⟨hmem, hindex, hflow, -, hdiagnostic⟩ := hother
    refine ⟨hmem, hindex, hflow, ?status, hdiagnostic⟩
    case status => simp [StatusLegal]
  · rw [State.hostReset_of_fits s other memInit hfits]
    obtain ⟨-, hindex, hflow, hstatus, hdiagnostic⟩ := inv_reset
    exact ⟨Mem.wf_image memInit hfits, hindex, hflow, hstatus, hdiagnostic⟩

/-- Settles O58: a request keeps each invariant, an acknowledgement writes no field of one, and a reset establishes
them (`inv_hostReset`). -/
theorem hostMovesKeepTheInvariants : Obligations.HostMovesKeepTheInvariants := by
  unfold Obligations.HostMovesKeepTheInvariants
  refine ⟨fun s t keys rnd hs h => request_keeps_inv h hs, fun s t hs h => ?ack,
    fun s t memInit prog other hother h => ?reset⟩
  case ack =>
    cases h
    exact hs
  case reset =>
    cases h
    exact inv_hostReset s memInit prog hother

end Sys2Proof.Reset
end
